-- ==== Sys2Proof/Word.lean ====
section
/-! DEFINITION. The value types of the block (spec/00_scope.md R9, R10, R12). -/

namespace Sys2Proof

/-- A 32-bit instruction word, the spec's `u32` (00 R8 `INSTR_BITS`, 30 R110). Bit 0 is the least
significant bit (00 R9). -/
abbrev Word := BitVec 32

/-- A 128-bit data word, the spec's `Word128` (00 R8 `WORD_BITS`, R16). -/
abbrev Word128 := BitVec 128

/-- A 32-bit address (00 R8 `ADDR_BITS`, 20 R70). -/
abbrev Addr := BitVec 32

/-- A 5-bit register index. It names no storage in the block (10 R41, 30 R119). -/
abbrev RegIndex := BitVec 5

/-- An ASCII character (00 R12), held as its code, 0 to 127 (log entry 6). -/
abbrev AsciiChar := Fin 128

/-- A text: a finite sequence of ASCII characters (00 R12). -/
abbrev Text := List AsciiChar

/-- The ASCII character that Lean's character literal names. It is applied to ASCII literals alone. -/
def ascii (c : Char) : AsciiChar := Fin.ofNat 128 c.toNat

/-- The text that Lean's string literal spells. It is applied to ASCII literals alone. -/
def text (s : String) : Text := s.toList.map ascii

end Sys2Proof
end

