-- ==== Sys2Proof/Config.lean ====
section
/-! DEFINITION. What an implementation fixes (spec/00_scope.md R8) and the free values the spec leaves open.
The values an object of the block may be constructed with stand in `Machine.Params`; here are the fixed ones,
the reference value of `CAPACITY`, and the uninterpreted constants the reset state takes for the OPEN ones. -/

namespace Sys2Proof.Config

/-- `MMIO_BASE`, the start of the unchecked high region (00 R8, 20 R71). -/
abbrev mmioBase : Nat := 0xFFFF0000

/-- The number of addresses, `2^32` (20 R70). -/
abbrev addrSpace : Nat := 0x100000000

/-- The reference value of `CAPACITY`, 8 MiB (00 R8). -/
abbrev referenceCapacity : Nat := 0x00800000

/-- `WORD_SIZE` and `WORD_ALIGN` (00 R8, 20 R79). -/
abbrev wordSize : Nat := 16
/-- `WORD_ALIGN` (00 R8, 20 R79). -/
abbrev wordAlign : Nat := 16
/-- `INSTR_SIZE` (00 R8, 20 R79). -/
abbrev instrSize : Nat := 4
/-- `INSTR_ALIGN` (00 R8, 20 R79). -/
abbrev instrAlign : Nat := 4

/-- `QUERY_STRIDE` (00 R8, 43 R291). -/
abbrev queryStride : Nat := 16

/-- `B32_MAX_BITS`, 128 as the spec decides (00 R8, 40 R162); so no value of the block overflows the
base-32 codec (log entry 10). -/
abbrev b32MaxBits : Nat := 128

/-- `LLI_MAX_LEN`, the longest instruction-shaped text (00 R8, 42 R252). -/
abbrev lliMaxLen : Nat := 8

/-- Free value: the `n`-th value the input source gives (10 R45). Nothing constrains it (log entry 4). -/
opaque draw : Nat → Word128

/-- Free value: where in the high region the reset object's output port lies (00 R8, OPEN). -/
opaque outputOffset : BitVec 16

/-- Free value: how far past the output port (less one, round the high region) the reset object's input
port lies; 65535 choices, so that the ports are distinct (00 R8, OPEN). -/
opaque inputDistance : Fin 65535

/-- Free value: the reset object's `STORAGE_KIND` text (00 R8, OPEN). -/
opaque storageKind : Text

/-- The reset object's `OUTPUT_PORT`: any address of the high region (log entry 3). -/
def outputPort : Addr := BitVec.ofNat 32 (mmioBase + outputOffset.toNat)

/-- The reset object's `INPUT_PORT`: any other address of the high region (log entry 3). -/
def inputPort : Addr := BitVec.ofNat 32 (mmioBase + (outputOffset.toNat + 1 + inputDistance.val) % 65536)

theorem outputPort_toNat : outputPort.toNat = mmioBase + outputOffset.toNat := by
  have := outputOffset.isLt
  simp only [outputPort, mmioBase, BitVec.toNat_ofNat]
  omega

theorem inputPort_toNat :
    inputPort.toNat = mmioBase + (outputOffset.toNat + 1 + inputDistance.val) % 65536 := by
  simp only [inputPort, mmioBase, BitVec.toNat_ofNat]
  omega

/-- The two ports of the reset object are distinct (00 R8, 20 R72). -/
theorem outputPort_ne_inputPort : outputPort ≠ inputPort := by
  intro h
  have h' := congrArg BitVec.toNat h
  rw [outputPort_toNat, inputPort_toNat] at h'
  have := outputOffset.isLt
  have := inputDistance.isLt
  omega

end Sys2Proof.Config
end

