-- ==== Sys2Proof/Syntax.lean ====
section
/-! DEFINITION. The instructions: one constructor per row of spec/opcode_table.json, in the table's order
(19 mnemonics and the 2 catch-all rows), each with every field its format extracts (spec/30_encoding.md R112 to
R114, R119; spec/41_instruction_decode.md R194 to R214). -/

namespace Sys2Proof

/-- An instruction word read by its fields. A register-format instruction carries all five of its fields
although its mnemonic may use fewer: the decoder reports every field (30 R119). -/
inductive Instr where
  /-- R194 -/
  | add (rs rt rd shamt : RegIndex)
  /-- R195 -/
  | sub (rs rt rd shamt : RegIndex)
  /-- R196 -/
  | mult (rs rt rd shamt : RegIndex)
  /-- R197 -/
  | multu (rs rt rd shamt : RegIndex)
  /-- R198 -/
  | div (rs rt rd shamt : RegIndex)
  /-- R199 -/
  | divu (rs rt rd shamt : RegIndex)
  /-- R200 -/
  | mfhi (rs rt rd shamt : RegIndex)
  /-- R201 -/
  | mflo (rs rt rd shamt : RegIndex)
  /-- R202 -/
  | lis (rs rt rd shamt : RegIndex)
  /-- R203 -/
  | jr (rs rt rd shamt : RegIndex)
  /-- R204 -/
  | jalr (rs rt rd shamt : RegIndex)
  /-- R205 -/
  | slt (rs rt rd shamt : RegIndex)
  /-- R206 -/
  | sltu (rs rt rd shamt : RegIndex)
  /-- R207 -/
  | lw (rs rt : RegIndex) (imm : BitVec 16)
  /-- R208 -/
  | sw (rs rt : RegIndex) (imm : BitVec 16)
  /-- R209 -/
  | beq (rs rt : RegIndex) (imm : BitVec 16)
  /-- R210 -/
  | bne (rs rt : RegIndex) (imm : BitVec 16)
  /-- R211 -/
  | j (addr : BitVec 26)
  /-- R212 -/
  | jal (addr : BitVec 26)
  /-- R213: a register-format word whose funct is in no row -/
  | unknownR (rs rt rd shamt : RegIndex) (funct : BitVec 6)
  /-- R214: an immediate-format word whose opcode is in no row -/
  | unknownI (opcode : BitVec 6) (rs rt : RegIndex) (imm : BitVec 16)
  deriving DecidableEq, Repr

end Sys2Proof
end

