-- ==== Sys2Proof/WellFormed.lean ====
section
/-! DEFINITION. Which instructions are the reading of some word: the catch-all rows hold only where no named row
does (spec/41_instruction_decode.md R213, R214; spec/opcode_table.json, the notes of its last two rows). Every other
field may take every value (spec/30_encoding.md R119). -/

namespace Sys2Proof

/-- The funct values of the named register-format rows, as R213 lists them. -/
def namedFuncts : List (BitVec 6) :=
  [0x08#6, 0x09#6, 0x10#6, 0x12#6, 0x14#6, 0x18#6, 0x19#6, 0x1A#6, 0x1B#6, 0x20#6, 0x22#6, 0x2A#6, 0x2B#6]

/-- The opcodes that are not the immediate format's (R111), and those of its named rows (R214). -/
def namedOpcodes : List (BitVec 6) :=
  [0x00#6, 0x02#6, 0x03#6, 0x04#6, 0x05#6, 0x23#6, 0x2B#6]

/-- An instruction is well formed when a catch-all row does not take what a named row or another format takes. -/
def Instr.wellFormed : Instr → Bool
  | .add _ _ _ _ => true
  | .sub _ _ _ _ => true
  | .mult _ _ _ _ => true
  | .multu _ _ _ _ => true
  | .div _ _ _ _ => true
  | .divu _ _ _ _ => true
  | .mfhi _ _ _ _ => true
  | .mflo _ _ _ _ => true
  | .lis _ _ _ _ => true
  | .jr _ _ _ _ => true
  | .jalr _ _ _ _ => true
  | .slt _ _ _ _ => true
  | .sltu _ _ _ _ => true
  | .lw _ _ _ => true
  | .sw _ _ _ => true
  | .beq _ _ _ => true
  | .bne _ _ _ => true
  | .j _ => true
  | .jal _ => true
  | .unknownR _ _ _ _ funct => !namedFuncts.contains funct
  | .unknownI opcode _ _ _ => !namedOpcodes.contains opcode

end Sys2Proof
end

