-- ==== Sys2Proof/Decode.lean ====
section
/-! DEFINITION. The decoder (spec/30_encoding.md R111 to R128, spec/41_instruction_decode.md R190 to R214) and, after
it, the encoder of a well-formed instruction from the same tables. -/

namespace Sys2Proof

/-! ### Fields of a word (30 R116) -/

/-- `w[31:26]` -/
def opcodeField (w : Word) : BitVec 6 := w.extractLsb' 26 6
/-- `w[25:21]` -/
def rsField (w : Word) : RegIndex := w.extractLsb' 21 5
/-- `w[20:16]` -/
def rtField (w : Word) : RegIndex := w.extractLsb' 16 5
/-- `w[15:11]` -/
def rdField (w : Word) : RegIndex := w.extractLsb' 11 5
/-- `w[10:6]` -/
def shamtField (w : Word) : RegIndex := w.extractLsb' 6 5
/-- `w[5:0]` -/
def functField (w : Word) : BitVec 6 := w.extractLsb' 0 6
/-- `w[15:0]`, raw (30 R117) -/
def immField (w : Word) : BitVec 16 := w.extractLsb' 0 16
/-- `w[25:0]`, raw (30 R118) -/
def addrField (w : Word) : BitVec 26 := w.extractLsb' 0 26

/-! ### Opcode map: the default tables (30 R124, R125) and the source's jump opcodes (R126). Only `add` 0x20 and
the opcodes 0x00, 0x02 and 0x03 are the source's; the rest are the spec's defaults from general knowledge (log entry 8). -/

/-- The register-format row of a funct value (30 R120, R124; 41 R194 to R206, R213). -/
def decodeRegister (rs rt rd shamt : RegIndex) (f : BitVec 6) : Instr :=
  match f with
  | 0x20#6 => .add rs rt rd shamt
  | 0x22#6 => .sub rs rt rd shamt
  | 0x18#6 => .mult rs rt rd shamt
  | 0x19#6 => .multu rs rt rd shamt
  | 0x1A#6 => .div rs rt rd shamt
  | 0x1B#6 => .divu rs rt rd shamt
  | 0x10#6 => .mfhi rs rt rd shamt
  | 0x12#6 => .mflo rs rt rd shamt
  | 0x14#6 => .lis rs rt rd shamt
  | 0x08#6 => .jr rs rt rd shamt
  | 0x09#6 => .jalr rs rt rd shamt
  | 0x2A#6 => .slt rs rt rd shamt
  | 0x2B#6 => .sltu rs rt rd shamt
  | f => .unknownR rs rt rd shamt f

/-- The immediate-format row of an opcode (30 R120, R125; 41 R207 to R210, R214). -/
def decodeImmediate (op : BitVec 6) (rs rt : RegIndex) (imm : BitVec 16) : Instr :=
  match op with
  | 0x23#6 => .lw rs rt imm
  | 0x2B#6 => .sw rs rt imm
  | 0x04#6 => .beq rs rt imm
  | 0x05#6 => .bne rs rt imm
  | op => .unknownI op rs rt imm

/-- The instruction a word stands for. Total: every word has one (30 R128, 41 R191, R192). -/
def decodeWord (w : Word) : Instr :=
  match opcodeField w with
  | 0x00#6 => decodeRegister (rsField w) (rtField w) (rdField w) (shamtField w) (functField w)
  | 0x02#6 => .j (addrField w)
  | 0x03#6 => .jal (addrField w)
  | op => decodeImmediate op (rsField w) (rtField w) (immField w)

/-- Why bits are no instruction. The block itself is never given such bits: its word input is 32 bits wide
(30 R110, 41 R190). -/
inductive DecodeReject where
  /-- the bits do not fit the one instruction length, 32 -/
  | notOneWord (nbits : Nat)
  /-- the value does not fit the bits it is given as -/
  | valueTooWide (w : Nat)
  deriving DecidableEq, Repr

/-- Reads an instruction from `nbits` bits of value `w`, with zeros above them; rejects, by name, what is no 32-bit
word, and nothing else (30 R110, R128). -/
def decodeBits (nbits w : Nat) : Except DecodeReject Instr :=
  if 32 < nbits then .error (.notOneWord nbits)
  else if 2 ^ nbits ≤ w then .error (.valueTooWide w)
  else .ok (decodeWord (BitVec.ofNat 32 w))

/-- The host's question about a word of the opcode table: what the decoder reads from it. -/
def decodeTableWord (nbits w : Nat) : Option Instr :=
  match decodeBits nbits w with
  | .ok i => some i
  | .error _ => none

/-! ### The encoder -/

/-- The register format's fields side by side, most significant first (30 R112). -/
def packRegister (op : BitVec 6) (rs rt rd shamt : RegIndex) (funct : BitVec 6) : Word :=
  op ++ rs ++ rt ++ rd ++ shamt ++ funct

/-- The immediate format's fields side by side (30 R113). -/
def packImmediate (op : BitVec 6) (rs rt : RegIndex) (imm : BitVec 16) : Word :=
  op ++ rs ++ rt ++ imm

/-- The jump format's fields side by side (30 R114). -/
def packJump (op : BitVec 6) (addr : BitVec 26) : Word :=
  op ++ addr

/-- The word of an instruction (30 R112 to R115, R124 to R126). -/
def encode : Instr → Word
  | .add rs rt rd shamt => packRegister 0x00#6 rs rt rd shamt 0x20#6
  | .sub rs rt rd shamt => packRegister 0x00#6 rs rt rd shamt 0x22#6
  | .mult rs rt rd shamt => packRegister 0x00#6 rs rt rd shamt 0x18#6
  | .multu rs rt rd shamt => packRegister 0x00#6 rs rt rd shamt 0x19#6
  | .div rs rt rd shamt => packRegister 0x00#6 rs rt rd shamt 0x1A#6
  | .divu rs rt rd shamt => packRegister 0x00#6 rs rt rd shamt 0x1B#6
  | .mfhi rs rt rd shamt => packRegister 0x00#6 rs rt rd shamt 0x10#6
  | .mflo rs rt rd shamt => packRegister 0x00#6 rs rt rd shamt 0x12#6
  | .lis rs rt rd shamt => packRegister 0x00#6 rs rt rd shamt 0x14#6
  | .jr rs rt rd shamt => packRegister 0x00#6 rs rt rd shamt 0x08#6
  | .jalr rs rt rd shamt => packRegister 0x00#6 rs rt rd shamt 0x09#6
  | .slt rs rt rd shamt => packRegister 0x00#6 rs rt rd shamt 0x2A#6
  | .sltu rs rt rd shamt => packRegister 0x00#6 rs rt rd shamt 0x2B#6
  | .lw rs rt imm => packImmediate 0x23#6 rs rt imm
  | .sw rs rt imm => packImmediate 0x2B#6 rs rt imm
  | .beq rs rt imm => packImmediate 0x04#6 rs rt imm
  | .bne rs rt imm => packImmediate 0x05#6 rs rt imm
  | .j addr => packJump 0x02#6 addr
  | .jal addr => packJump 0x03#6 addr
  | .unknownR rs rt rd shamt funct => packRegister 0x00#6 rs rt rd shamt funct
  | .unknownI opcode rs rt imm => packImmediate opcode rs rt imm

end Sys2Proof
end

