-- ==== Sys2Proof/Machine/Types.lean ====
section
/-! DEFINITION. The records the block's operations exchange with the requester: the decoded record, the memory entry,
errors, requests, responses and host events. -/

namespace Sys2Proof.Machine

/-- The three instruction formats (30 R111). -/
inductive InstrFormat where
  | register
  | immediate
  | jump
  deriving DecidableEq, Repr

/-- The structured view of a word (30 R130). A field that a format does not have is absent from its record, not
zero, so each format has a record shape of its own. -/
inductive DecodedInstruction where
  | register (mnemonic : Text) (raw : Word) (opcode : BitVec 6) (rs rt rd shamt : RegIndex) (funct : BitVec 6)
  | immediate (mnemonic : Text) (raw : Word) (opcode : BitVec 6) (rs rt : RegIndex) (imm : BitVec 16)
  | jump (mnemonic : Text) (raw : Word) (opcode : BitVec 6) (addr : BitVec 26)
  deriving DecidableEq, Repr

/-- The requested rendering of a value (00 R16, 40 R167): four values, no other. -/
inductive Format where
  | hex
  | decimal
  | binary
  | base32
  deriving DecidableEq, Repr

/-- The field operands of the encoders, by name (42 R244, R245). -/
inductive FieldName where
  | opcode
  | rs
  | rt
  | rd
  | shamt
  | funct
  | immediate
  deriving DecidableEq, Repr

/-- The errors of the block, each with the information it records (60 R320). An error is a response, not a stop. -/
inductive OpError where
  /-- code 1: the address and the access size -/
  | outOfBounds (a : Addr) (size : Nat)
  /-- code 2: the address and the alignment -/
  | misaligned (a : Addr) (alignment : Nat)
  /-- code 3: the offending text -/
  | invalidNumeral (t : Text)
  /-- code 4: the offending text -/
  | invalidDigit (t : Text)
  /-- code 5: the field's name and value -/
  | fieldOutOfRange (field : FieldName) (value : Nat)
  deriving DecidableEq, Repr

/-- The error names an invalid marker may hold (43 R290). -/
inductive EntryError where
  | invalidNumeral
  | invalidDigit
  deriving DecidableEq, Repr

/-- One present address of a range query (43 R290). The optional fields are present as R290 says. -/
structure MemoryEntry where
  address : Text
  format : Format
  valid : Bool
  error : Option EntryError
  value : Option Text
  isInstruction : Bool
  instructionWord : Option Text
  decoded : Option DecodedInstruction
  deriving DecidableEq, Repr

/-- What `info` reports (43 R300). -/
structure Info where
  totalSize : Nat
  usedAddressCount : Nat
  storageKind : Text
  deriving DecidableEq, Repr

/-- The requests of the block (00 R6, R7): the operations of NUM, DEC, ENC and AS with their operands. The encoders'
operands are integers so that a negative one can be presented, and refused (42 R242). -/
inductive Request where
  /-- 40 R151 -/
  | parse (t : Text)
  /-- 40 R155 -/
  | toHex (v : Word128)
  /-- 40 R157 -/
  | toDecimal (v : Word128)
  /-- 40 R158 -/
  | toBinary (v : Word128)
  /-- 40 R161 -/
  | toBase32 (v : Word128)
  /-- 40 R163 -/
  | fromBase32 (t : Text)
  /-- 40 R167 -/
  | render (v : Word128) (fmt : Format)
  /-- 41 R190 -/
  | decode (w : Word)
  /-- 42 R240 -/
  | encodeRegisterFormat (opcode rs rt rd shamt funct : Int)
  /-- 42 R241 -/
  | encodeImmediateFormat (opcode rs rt immediate : Int)
  /-- 42 R244 -/
  | encodeRegisterFormatStrict (opcode rs rt rd shamt funct : Int)
  /-- 42 R245 -/
  | encodeImmediateFormatStrict (opcode rs rt immediate : Int)
  /-- 42 R250 -/
  | encodeInstructionText (w : Word)
  /-- 42 R251 -/
  | decodeInstructionText (t : Text)
  /-- 42 R252 -/
  | looksLikeInstruction (t : Text)
  /-- 43 R270 -/
  | loadWord (a : Addr)
  /-- 43 R275 -/
  | storeWord (a : Addr) (v : Word128)
  /-- 43 R280 -/
  | fetchInstruction (a : Addr)
  /-- 43 R283 -/
  | storeInstruction (a : Addr) (w : Word)
  /-- 43 R291 -/
  | queryRange (start : Addr) (length : Nat) (fmt : Format)
  /-- 43 R300 -/
  | info
  deriving DecidableEq, Repr

/-- The response to a request: a result or an error status (00 R6, R14; 60 R325). -/
inductive Response where
  /-- a store ended well (43 R275, R283) -/
  | done
  /-- a 128-bit value -/
  | word (v : Word128)
  /-- a 32-bit instruction word -/
  | instruction (w : Word)
  /-- a text -/
  | text (t : Text)
  /-- the classifier's verdict (42 R252) -/
  | verdict (b : Bool)
  /-- a decoded record (41 R190) -/
  | decoded (d : DecodedInstruction)
  /-- a query's entries (43 R291) -/
  | entries (es : List MemoryEntry)
  /-- the introspection record (43 R300) -/
  | info (i : Info)
  /-- an error (60 R320) -/
  | error (e : OpError)
  deriving DecidableEq, Repr

/-- What can reach the block from outside (log entries 1, 12, 13). -/
inductive HostEvent where
  /-- a request, presented after the response to the one before -/
  | request (r : Request)
  /-- a request and another one presented before the first one's response (20 R94) -/
  | overlapping (first second : Request)
  /-- the persistence collaborators replace the whole store by this one (70 R364) -/
  | replaceStore (entries : List (Addr × Text))
  deriving DecidableEq, Repr

/-- Which way the instruction path treats an address (43 R282): as ordinary storage, as a port that is refused, or as
a port that mirrors the word path. -/
inductive PortRoute where
  | ordinary
  | refused
  | mirrored
  deriving DecidableEq, Repr

/-- `INSTR_PORT_MODE` (00 R8, 43 R282). -/
inductive InstrPortMode where
  | ordinary
  | special
  | refuse
  deriving DecidableEq, Repr

end Sys2Proof.Machine
end

