-- ==== Sys2Proof/Machine/State.lean ====
section
/-! DEFINITION. The state of the block as plain data (spec/10_state.md R40 to R53), the reasons a step can stop, and
the state after reset (spec/70_reset_and_hazards.md R360). -/

namespace Sys2Proof.Machine

/-- The constraints of 00 R8 on the parameters: `CAPACITY <= MMIO_BASE`, both ports in the high region, the ports
distinct. -/
def paramsValid (capacity : Nat) (outputPort inputPort : Addr) : Bool :=
  decide (capacity ≤ Config.mmioBase) && decide (Config.mmioBase ≤ outputPort.toNat) &&
    decide (Config.mmioBase ≤ inputPort.toNat) && !decide (outputPort = inputPort)

/-- What a block object is constructed with (00 R8, 10 R51, 70 R360). A record that breaks a constraint cannot be
built, since the spec gives it no meaning (70 R365). -/
structure Params where
  /-- `CAPACITY` -/
  capacity : Nat
  /-- `OUTPUT_PORT` -/
  outputPort : Addr
  /-- `INPUT_PORT` -/
  inputPort : Addr
  /-- `INSTR_PORT_MODE` -/
  instrPortMode : InstrPortMode
  /-- `STORAGE_KIND` -/
  storageKind : Text
  /-- the constraints hold -/
  valid : paramsValid capacity outputPort inputPort = true
  deriving DecidableEq, Repr

/-- The store `M` (10 R44): address and text pairs, addresses strictly rising. An address that is not listed is
absent. The entries are whole texts, not bytes (10 R47, 20 R83; log entry 5). -/
abbrev Memory := List (Nat × Text)

/-- Why the machine could stop with a fault. There is none: every error of the block is delivered in a response and
the block goes on (60 R325, R327), so no constructor stands here and no one raises a fault. Safe: nothing stops. -/
inductive Fault where
  deriving DecidableEq, Repr

/-- The cases the spec gives no meaning and tells a model to refuse (00 R14, 60 R328, R333). Each is safe: no claim
about such a run can be proved. -/
inductive Refusal where
  /-- An instruction without a meaning in this model: raised by no arm. Safe. -/
  | notModelled (mnemonic : String)
  /-- Raised by `loadWord` at a key that holds an instruction-shaped text (43 R272). Safe. -/
  | kindMismatch (a : Addr)
  /-- Raised by `storeInstruction` and `fetchInstruction` at a port address while `INSTR_PORT_MODE` is `refuse`
  (43 R282). Safe. -/
  | portOnInstructionPath (a : Addr)
  /-- Raised by the step for a request presented before the previous response (20 R94). Safe. -/
  | concurrentRequest
  /-- Raised by the encoders for an operand below 0 (42 R242). Safe. -/
  | negativeField (field : FieldName)
  deriving DecidableEq, Repr

/-- One block object. `store` and `out` are the spec's state (10 R40); `params` is what it was constructed with;
`draws`, `inbox` and `response` are the model's own fields for the input source and the request interface (log
entries 1 to 4). -/
structure State where
  /-- the parameters of construction; no step changes them -/
  params : Params
  /-- `M` -/
  store : Memory
  /-- `OUT`, oldest value first -/
  out : List Word128
  /-- how many values the input source has given -/
  draws : Nat
  /-- the host events still to come, oldest first -/
  inbox : List HostEvent
  /-- the response of the last operation performed -/
  response : Option Response
  deriving DecidableEq, Repr

theorem resetParams_valid :
    paramsValid Config.referenceCapacity Config.outputPort Config.inputPort = true := by
  simp [paramsValid, Config.referenceCapacity, Config.mmioBase, Config.outputPort_ne_inputPort,
    Config.outputPort_toNat, Config.inputPort_toNat]

/-- The parameters of the reset object: the spec's reference capacity and default port mode, and an uninterpreted
value for each OPEN one (log entry 3). -/
def resetParams : Params where
  capacity := Config.referenceCapacity
  outputPort := Config.outputPort
  inputPort := Config.inputPort
  instrPortMode := .refuse
  storageKind := Config.storageKind
  valid := resetParams_valid

/-- A block object just constructed with these parameters: `M = {}`, `OUT = []` (10 R53, 70 R360); no event has come
and no operation has been performed. -/
def State.construct (p : Params) : State where
  params := p
  store := []
  out := []
  draws := 0
  inbox := []
  response := none

/-- The machine right after reset; reset is construction (70 R360). -/
def State.reset : State := State.construct resetParams

end Sys2Proof.Machine
end

