-- ==== Sys2Proof/Machine/Ops.lean ====
section
/-! DEFINITION. The named operations over the store and the state (spec/00_scope.md R13, R14). Every read and write of
`M`, every output, every input draw and every response goes through one of them. -/

namespace Sys2Proof.Machine

/-! ### The store -/

/-- `MemRead(a, n)` (00 R13): the text at key `a`, or none when the key is absent. The width is not an argument: an
access touches no key other than its own (10 R47). -/
def Memory.read : Memory → Nat → Option Text
  | [], _ => none
  | (k, t) :: m, a => if k = a then some t else Memory.read m a

/-- `MemWrite(a, n, t)` (00 R13): sets the entry at key `a`, whatever it held (10 R47), and keeps the keys rising. -/
def Memory.write : Memory → Nat → Text → Memory
  | [], a, t => [(a, t)]
  | (k, u) :: m, a, t =>
    if a < k then (a, t) :: (k, u) :: m
    else if a = k then (a, t) :: m
    else (k, u) :: Memory.write m a t

/-- The store that a list of addressed texts describes; of two texts at one address the later stands (70 R364, log
entry 13). -/
def Memory.ofEntries (entries : List (Addr × Text)) : Memory :=
  entries.foldl (fun m e => m.write e.1.toNat e.2) []

/-- `|dom M|`, the number of present keys (43 R300). -/
def Memory.count (m : Memory) : Nat := m.length

/-- The canonical form: every key is an address (20 R70) and the keys rise strictly, so that equal stores are equal
lists. What an unlisted address reads as is absent, which no entry can hold. -/
abbrev Memory.wf (m : Memory) : Prop :=
  m.Pairwise (fun p q => p.1 < q.1) ∧ ∀ p ∈ m, p.1 < Config.addrSpace

/-! ### The state -/

/-- The result of the three outcome primitives of 00 R14, for an operation that changes no state. -/
abbrev StepOutcome := Host.Outcome State Fault Refusal

/-- Ends an operation with a response (00 R6, R14). -/
def State.respond (s : State) (r : Response) : State := { s with response := some r }

/-- `raise E(info)`: ends an operation with an error (00 R14, 60 R325). This is all that taking an exception is on
this hardware: the error goes into the response, nothing else changes (60 R326); there is no vector, no saved program
counter, no mode (60 R325). There is no return from it: the block just takes the next request (60 R327). -/
def State.raise (s : State) (e : OpError) : State := s.respond (.error e)

/-- `MemWrite` on the state. -/
def State.writeEntry (s : State) (a : Addr) (t : Text) : State := { s with store := s.store.write a.toNat t }

/-- `MemRead` on the state. -/
def State.readEntry (s : State) (a : Addr) : Option Text := s.store.read a.toNat

/-- `Emit(v)`: appends to the output log (00 R13, 10 R46). -/
def State.emit (s : State) (v : Word128) : State := { s with out := s.out ++ [v] }

/-- The value the next `Draw128()` gives (10 R45): a free value. -/
def State.nextDraw (s : State) : Word128 := Config.draw s.draws

/-- A draw is consumed (10 R45). -/
def State.consumeDraw (s : State) : State := { s with draws := s.draws + 1 }

/-- The host replaces the whole store; nothing else changes (70 R364). -/
def State.replaceStore (s : State) (entries : List (Addr × Text)) : State :=
  { s with store := Memory.ofEntries entries }

/-- The state once the oldest event has been taken from the inbox. -/
def State.takeEvent (s : State) (rest : List HostEvent) : State := { s with inbox := rest }

/-- Ends an operation that reads and writes no state with its result or its error. -/
def answer (result : Except OpError Response) (s : State) : StepOutcome :=
  match result with
  | .ok r => .next (s.respond r)
  | .error e => .next (s.raise e)

end Sys2Proof.Machine
end

