-- ==== Sys2Proof/Machine/Numeric.lean ====
section
/-! DEFINITION. NUM, the 128-bit radix converter (spec/40_numeric_codec.md R150 to R167). Pure functions. -/

namespace Sys2Proof.Machine

/-! ### Alphabets: the digit of value `d` is the character at place `d` (00 R12, 40 R160) -/

/-- `DEC` -/
def decimalDigits : Text := text "0123456789"
/-- `HEXL` -/
def hexDigitsLower : Text := text "0123456789abcdef"
/-- `HEXU` -/
def hexDigitsUpper : Text := text "0123456789ABCDEF"
/-- `B32`, uppercase letters only (40 R160) -/
def base32Digits : Text := text "0123456789ABCDEFGHIJKLMNOPQRSTUV"

/-- The character of a digit value in an alphabet. -/
def digitChar (alphabet : Text) (d : Nat) : AsciiChar := alphabet.getD d (ascii '0')

/-- The digit value of a character, if the alphabet has it. -/
def digitValue (alphabet : Text) (c : AsciiChar) : Option Nat := alphabet.idxOf? c

/-- Digit value in base 10 (40 R151). -/
def decimalValue (c : AsciiChar) : Option Nat := digitValue decimalDigits c

/-- Digit value in base 16, either case (40 R151). -/
def hexValue (c : AsciiChar) : Option Nat := (digitValue hexDigitsLower c).or (digitValue hexDigitsUpper c)

/-- Digit value in base 32 (40 R160). -/
def base32Value (c : AsciiChar) : Option Nat := digitValue base32Digits c

/-! ### Positional numerals -/

/-- Reads digits, most significant first, onto `acc`; none if a character is no digit. -/
def readDigits (base : Nat) (value : AsciiChar → Option Nat) : Nat → Text → Option Nat
  | acc, [] => some acc
  | acc, c :: t =>
    match value c with
    | none => none
    | some d => readDigits base value (acc * base + d) t

/-- The numeral `t` in a radix: none if it is empty or a character is no digit of the radix. -/
def readNumeral (base : Nat) (value : AsciiChar → Option Nat) (t : Text) : Option Nat :=
  if t = [] then none else readDigits base value 0 t

/-- The `n` low digits of `v`, most significant first. -/
def fixedDigits (base : Nat) : Nat → Nat → List Nat
  | 0, _ => []
  | n + 1, v => fixedDigits base n (v / base) ++ [v % base]

/-- The digits of `v` without leading zeros, most significant first; none for 0. `fuel` bounds their number. -/
def minimalDigits (base : Nat) : Nat → Nat → List Nat
  | 0, _ => []
  | fuel + 1, v => if v = 0 then [] else minimalDigits base fuel (v / base) ++ [v % base]

/-- `hexN(v, n)` (00 R12): `0x` and `n` lowercase hexadecimal digits. -/
def hexN (v n : Nat) : Text := text "0x" ++ (fixedDigits 16 n v).map (digitChar hexDigitsLower)

/-! ### Text to value -/

/-- A value as a 128-bit word, or the error when it is 2^128 or more (40 R151). -/
def word128Of (v : Nat) (e : OpError) : Except OpError Word128 :=
  if v < 2 ^ 128 then .ok (BitVec.ofNat 128 v) else .error e

/-- The text after a leading `0x`, lowercase `x` only (40 R151). -/
def afterHexMark : Text → Option Text
  | c :: d :: t => if c = ascii '0' ∧ d = ascii 'x' then some t else none
  | _ => none

/-- The number a text denotes by R151's grammar, before the bound is checked. -/
def parseNat (t : Text) : Option Nat :=
  match afterHexMark t with
  | some d => readNumeral 16 hexValue d
  | none =>
    match readNumeral 10 decimalValue t with
    | some v => some v
    | none => readNumeral 16 hexValue t

/-- `parse(t)` (40 R151). -/
def parse (t : Text) : Except OpError Word128 :=
  match parseNat t with
  | some v => word128Of v (.invalidNumeral t)
  | none => .error (.invalidNumeral t)

/-- `fromBase32(t)` (40 R163). -/
def fromBase32 (t : Text) : Except OpError Word128 :=
  match readNumeral 32 base32Value t with
  | some v => if v < 2 ^ Config.b32MaxBits then .ok (BitVec.ofNat 128 v) else .error (.invalidDigit t)
  | none => .error (.invalidDigit t)

/-! ### Value to text -/

/-- `toHex(v)` (40 R155): the canonical text of a stored word. -/
def toHex (v : Word128) : Text := hexN v.toNat 32

/-- `toDecimal(v)` (40 R157); 39 digits hold every 128-bit value. -/
def toDecimal (v : Word128) : Text :=
  if v = 0 then [ascii '0'] else (minimalDigits 10 39 v.toNat).map (digitChar decimalDigits)

/-- `toBinary(v)` (40 R158): exactly 128 characters. -/
def toBinary (v : Word128) : Text := (fixedDigits 2 128 v.toNat).map (digitChar decimalDigits)

/-- The base-32 numeral of a number below `32^26` (40 R161). -/
def base32Numeral (v : Nat) : Text :=
  if v = 0 then [ascii '0'] else (minimalDigits 32 26 v).map (digitChar base32Digits)

/-- `toBase32(v)` (40 R161, R162); 26 digits hold every 128-bit value. -/
def toBase32 (v : Word128) : Text := base32Numeral v.toNat

/-- `toBase32` of an instruction word, which is a 128-bit value below 2^32 (40 R161, 42 R250). -/
def wordToBase32 (w : Word) : Text := toBase32 (w.setWidth 128)

/-- `render(v, fmt)` (40 R167). -/
def render (v : Word128) : Format → Text
  | .hex => toHex v
  | .decimal => toDecimal v
  | .binary => toBinary v
  | .base32 => toBase32 v

/-- The default of a format operand (43 R307). -/
def defaultFormat : Format := .hex

end Sys2Proof.Machine
end

