-- ==== Sys2Proof/Machine/Decoder.lean ====
section
/-! DEFINITION. DEC, the decoder unit: the record it gives for an instruction (spec/41_instruction_decode.md R190 to
R217, spec/30_encoding.md R130), and the shared operation by which each instruction reports its record. -/

namespace Sys2Proof.Machine

/-- `SYNTH_NAME_R(f)` (41 R215). -/
def synthNameR (funct : BitVec 6) : Text := text "unknown_funct_" ++ hexN funct.toNat 2

/-- `SYNTH_NAME_I(o)` (41 R216). -/
def synthNameI (opcode : BitVec 6) : Text := text "unknown_opcode_" ++ hexN opcode.toNat 2

/-- The record of a register-format word with these fields (41 R190, 30 R112). -/
def registerRecord (mnemonic : Text) (rs rt rd shamt : RegIndex) (funct : BitVec 6) : DecodedInstruction :=
  .register mnemonic (packRegister 0x00#6 rs rt rd shamt funct) 0x00#6 rs rt rd shamt funct

/-- The record of an immediate-format word with these fields (41 R190, 30 R113); the immediate stays raw (30 R117). -/
def immediateRecord (mnemonic : Text) (opcode : BitVec 6) (rs rt : RegIndex) (imm : BitVec 16) : DecodedInstruction :=
  .immediate mnemonic (packImmediate opcode rs rt imm) opcode rs rt imm

/-- The record of a jump-format word with these fields (41 R190, 30 R114); the address stays raw (30 R118). -/
def jumpRecord (mnemonic : Text) (opcode : BitVec 6) (addr : BitVec 26) : DecodedInstruction :=
  .jump mnemonic (packJump opcode addr) opcode addr

/-- The record of each instruction (41 R194 to R214). -/
def recordOf : Instr → DecodedInstruction
  | .add rs rt rd shamt => registerRecord (text "add") rs rt rd shamt 0x20#6
  | .sub rs rt rd shamt => registerRecord (text "sub") rs rt rd shamt 0x22#6
  | .mult rs rt rd shamt => registerRecord (text "mult") rs rt rd shamt 0x18#6
  | .multu rs rt rd shamt => registerRecord (text "multu") rs rt rd shamt 0x19#6
  | .div rs rt rd shamt => registerRecord (text "div") rs rt rd shamt 0x1A#6
  | .divu rs rt rd shamt => registerRecord (text "divu") rs rt rd shamt 0x1B#6
  | .mfhi rs rt rd shamt => registerRecord (text "mfhi") rs rt rd shamt 0x10#6
  | .mflo rs rt rd shamt => registerRecord (text "mflo") rs rt rd shamt 0x12#6
  | .lis rs rt rd shamt => registerRecord (text "lis") rs rt rd shamt 0x14#6
  | .jr rs rt rd shamt => registerRecord (text "jr") rs rt rd shamt 0x08#6
  | .jalr rs rt rd shamt => registerRecord (text "jalr") rs rt rd shamt 0x09#6
  | .slt rs rt rd shamt => registerRecord (text "slt") rs rt rd shamt 0x2A#6
  | .sltu rs rt rd shamt => registerRecord (text "sltu") rs rt rd shamt 0x2B#6
  | .lw rs rt imm => immediateRecord (text "lw") 0x23#6 rs rt imm
  | .sw rs rt imm => immediateRecord (text "sw") 0x2B#6 rs rt imm
  | .beq rs rt imm => immediateRecord (text "beq") 0x04#6 rs rt imm
  | .bne rs rt imm => immediateRecord (text "bne") 0x05#6 rs rt imm
  | .j addr => jumpRecord (text "j") 0x02#6 addr
  | .jal addr => jumpRecord (text "jal") 0x03#6 addr
  | .unknownR rs rt rd shamt funct => registerRecord (synthNameR funct) rs rt rd shamt funct
  | .unknownI opcode rs rt imm => immediateRecord (synthNameI opcode) opcode rs rt imm

/-- `decode(w)` (41 R190, R191): a function of the word alone. -/
def decodeRecord (w : Word) : DecodedInstruction := recordOf (decodeWord w)

/-- The format a word's opcode selects (30 R111). -/
def formatOf (w : Word) : InstrFormat :=
  match opcodeField w with
  | 0x00#6 => .register
  | 0x02#6 => .jump
  | 0x03#6 => .jump
  | _ => .immediate

/-- The `format` field of a record (30 R130). -/
def recordFormat : DecodedInstruction → InstrFormat
  | .register _ _ _ _ _ _ _ _ => .register
  | .immediate _ _ _ _ _ _ => .immediate
  | .jump _ _ _ _ => .jump

/-- The `mnemonic` field of a record (30 R130). -/
def recordMnemonic : DecodedInstruction → Text
  | .register m _ _ _ _ _ _ _ => m
  | .immediate m _ _ _ _ _ => m
  | .jump m _ _ _ => m

/-- The `raw` field of a record (30 R130). -/
def recordRaw : DecodedInstruction → Word
  | .register _ r _ _ _ _ _ _ => r
  | .immediate _ r _ _ _ _ => r
  | .jump _ r _ _ => r

/-- What an instruction does in the block: its decoded record is the response, and nothing more. No register, no flag,
no memory, no target, no exception (41 R193). -/
def reportDecoded (i : Instr) (s : State) : StepOutcome := .next (s.respond (.decoded (recordOf i)))

end Sys2Proof.Machine
end

