-- ==== Sys2Proof/Machine/Operands.lean ====
section
/-! DEFINITION. Operand forms: the checks on the encoders' field operands (spec/42_instruction_encode.md R242 to R245)
and the extensions of spec/00_scope.md R11. -/

namespace Sys2Proof.Machine

/-- The first operand below 0, in operand order (42 R242, log entry 11). -/
def firstNegative : List (FieldName × Int) → Option FieldName
  | [] => none
  | (f, x) :: rest => if x < 0 then some f else firstNegative rest

/-- The width of a field operand (30 R112, R113; 42 R242). -/
def fieldWidth : FieldName → Nat
  | .opcode => 6
  | .rs => 5
  | .rt => 5
  | .rd => 5
  | .shamt => 5
  | .funct => 6
  | .immediate => 16

/-- The first operand at or above 2 to the power of its width, in operand order, with its value (42 R244, R245). -/
def firstOutOfRange : List (FieldName × Nat) → Option (FieldName × Nat)
  | [] => none
  | (f, x) :: rest => if 2 ^ fieldWidth f ≤ x then some (f, x) else firstOutOfRange rest

/-- `zext_N(v)` (00 R11): the value itself. No operation of the block uses it. -/
def zext (v : Nat) : Nat := v

/-- `sext_N(v)` for a `k`-bit `v` (00 R11). No operation of the block uses it; a consumer of a raw immediate may
(30 R117). -/
def sext (N k v : Nat) : Nat := if v.testBit (k - 1) then v + 2 ^ N - 2 ^ k else v

end Sys2Proof.Machine
end

