-- ==== Sys2Proof/Machine/Encoders.lean ====
section
/-! DEFINITION. ENC: the encoders, the base-32 instruction text and the classifier
(spec/42_instruction_encode.md R240 to R253). Pure functions. -/

namespace Sys2Proof.Machine

/-- `encodeRegisterFormat` (42 R240): every operand is reduced modulo 2 to the power of its width, and packed. -/
def encodeRegisterFormat (opcode rs rt rd shamt funct : Nat) : Word :=
  BitVec.ofNat 32
    (((opcode % 2 ^ 6) <<< 26) ||| ((rs % 2 ^ 5) <<< 21) ||| ((rt % 2 ^ 5) <<< 16) |||
      ((rd % 2 ^ 5) <<< 11) ||| ((shamt % 2 ^ 5) <<< 6) ||| (funct % 2 ^ 6))

/-- `encodeImmediateFormat` (42 R241). -/
def encodeImmediateFormat (opcode rs rt immediate : Nat) : Word :=
  BitVec.ofNat 32
    (((opcode % 2 ^ 6) <<< 26) ||| ((rs % 2 ^ 5) <<< 21) ||| ((rt % 2 ^ 5) <<< 16) ||| (immediate % 2 ^ 16))

/-- `encodeRegisterFormatStrict` (42 R244). -/
def encodeRegisterFormatStrict (opcode rs rt rd shamt funct : Nat) : Except OpError Word :=
  match firstOutOfRange
      [(.opcode, opcode), (.rs, rs), (.rt, rt), (.rd, rd), (.shamt, shamt), (.funct, funct)] with
  | some (f, x) => .error (.fieldOutOfRange f x)
  | none => .ok (encodeRegisterFormat opcode rs rt rd shamt funct)

/-- `encodeImmediateFormatStrict` (42 R245). -/
def encodeImmediateFormatStrict (opcode rs rt immediate : Nat) : Except OpError Word :=
  match firstOutOfRange [(.opcode, opcode), (.rs, rs), (.rt, rt), (.immediate, immediate)] with
  | some (f, x) => .error (.fieldOutOfRange f x)
  | none => .ok (encodeImmediateFormat opcode rs rt immediate)

/-- `encodeInstructionText(w)` (42 R250). -/
def encodeInstructionText (w : Word) : Text := wordToBase32 w

/-- A base-32 text read as a 32-bit word (42 R251, 43 R280, R281): `InvalidDigit` when it is no base-32 numeral or its
value does not fit. -/
def base32Word (t : Text) : Except OpError Word :=
  match fromBase32 t with
  | .error e => .error e
  | .ok v => if v.toNat < 2 ^ 32 then .ok (v.setWidth 32) else .error (.invalidDigit t)

/-- `decodeInstructionText(t)` (42 R251). -/
def decodeInstructionText (t : Text) : Except OpError DecodedInstruction :=
  match base32Word t with
  | .error e => .error e
  | .ok w => .ok (decodeRecord w)

/-- Whether a character is in the base-32 alphabet (40 R160). -/
def isBase32Digit (c : AsciiChar) : Bool := (base32Value c).isSome

/-- `looksLikeInstruction(t)` (42 R252). -/
def looksLikeInstruction (t : Text) : Bool :=
  decide (1 ≤ t.length) && decide (t.length ≤ Config.lliMaxLen) && t.all isBase32Digit

end Sys2Proof.Machine
end

