-- ==== Sys2Proof/Machine/Enforcer.lean ====
section
/-! DEFINITION. The bounds and alignment enforcer (spec/20_memory.md R75 to R82) and the instruction path's port
route (spec/43_address_space_ops.md R282). They read no state but the parameters and write none. -/

namespace Sys2Proof.Machine

/-- `isOutputPort(a)` (20 R75). -/
def isOutputPort (p : Params) (a : Addr) : Bool := decide (a = p.outputPort)

/-- `isInputPort(a)` (20 R75). -/
def isInputPort (p : Params) (a : Addr) : Bool := decide (a = p.inputPort)

/-- `boundsOK(a, n)` on unbounded naturals (20 R76). -/
def boundsOK (p : Params) (a : Addr) (n : Nat) : Bool :=
  decide (Config.mmioBase ≤ a.toNat) || decide (a.toNat + n ≤ p.capacity)

/-- `alignOK(a, k)` (20 R77). -/
def alignOK (a : Addr) (k : Nat) : Bool := decide (a.toNat % k = 0)

/-- `enforce(a, n, k)`: the error of the first check that fails, bounds before alignment; none when both pass
(20 R78). -/
def enforce (p : Params) (a : Addr) (n k : Nat) : Option OpError :=
  if boundsOK p a n = false then some (.outOfBounds a n)
  else if alignOK a k = false then some (.misaligned a k)
  else none

/-- The word path's check, `enforce(a, 16, 16)` (20 R79). -/
def enforceWord (p : Params) (a : Addr) : Option OpError := enforce p a Config.wordSize Config.wordAlign

/-- The instruction path's check, `enforce(a, 4, 4)` (20 R79). -/
def enforceInstr (p : Params) (a : Addr) : Option OpError := enforce p a Config.instrSize Config.instrAlign

/-- `portCase(a)` up to the operation's own mirror of the word path (43 R282). -/
def portRoute (p : Params) (a : Addr) : PortRoute :=
  if isOutputPort p a = false ∧ isInputPort p a = false then .ordinary
  else
    match p.instrPortMode with
    | .ordinary => .ordinary
    | .refuse => .refused
    | .special => .mirrored

end Sys2Proof.Machine
end

