-- ==== Sys2Proof/Machine/AddressSpace.lean ====
section
/-! DEFINITION. AS: the address-space operations (spec/43_address_space_ops.md R270 to R308). The order of the checks
is that of spec/60_exceptions.md R323. -/

namespace Sys2Proof.Machine

/-! ### Word path -/

/-- What a word load answers for the entry at its key: 0 for an absent key (43 R270), a refusal for an
instruction-shaped text (43 R272), else the parsed value or `parse`'s error. -/
def loadEntry (a : Addr) (entry : Option Text) (s : State) : StepOutcome :=
  match entry with
  | none => .next (s.respond (.word 0))
  | some t =>
    if looksLikeInstruction t then .refused (.kindMismatch a)
    else answer ((parse t).map .word) s

/-- `loadWord(a)` (43 R270). -/
def loadWord (a : Addr) (s : State) : StepOutcome :=
  if isInputPort s.params a then .next (s.consumeDraw.respond (.word s.nextDraw))
  else
    match enforceWord s.params a with
    | some e => .next (s.raise e)
    | none => loadEntry a (s.readEntry a) s

/-- `storeWord(a, v)` (43 R275). -/
def storeWord (a : Addr) (v : Word128) (s : State) : StepOutcome :=
  if isOutputPort s.params a then .next ((s.emit v).respond .done)
  else
    match enforceWord s.params a with
    | some e => .next (s.raise e)
    | none => .next ((s.writeEntry a (toHex v)).respond .done)

/-! ### Instruction path -/

/-- The part of `fetchInstruction` after `portCase` (43 R280, R281). -/
def fetchChecked (a : Addr) (s : State) : StepOutcome :=
  match enforceInstr s.params a with
  | some e => .next (s.raise e)
  | none =>
    match s.readEntry a with
    | none => .next (s.respond (.instruction 0))
    | some t => answer ((base32Word t).map .instruction) s

/-- `fetchInstruction(a)` (43 R280, R282). In mode `special` the input port gives the low 32 bits of a draw. -/
def fetchInstruction (a : Addr) (s : State) : StepOutcome :=
  match portRoute s.params a with
  | .refused => .refused (.portOnInstructionPath a)
  | .ordinary => fetchChecked a s
  | .mirrored =>
    if isInputPort s.params a then .next (s.consumeDraw.respond (.instruction (s.nextDraw.setWidth 32)))
    else fetchChecked a s

/-- The part of `storeInstruction` after `portCase` (43 R283). -/
def storeChecked (a : Addr) (w : Word) (s : State) : StepOutcome :=
  match enforceInstr s.params a with
  | some e => .next (s.raise e)
  | none => .next ((s.writeEntry a (wordToBase32 w)).respond .done)

/-- `storeInstruction(a, w)` (43 R283, R282). In mode `special` the output port emits the word. -/
def storeInstruction (a : Addr) (w : Word) (s : State) : StepOutcome :=
  match portRoute s.params a with
  | .refused => .refused (.portOnInstructionPath a)
  | .ordinary => storeChecked a w s
  | .mirrored =>
    if isOutputPort s.params a then .next ((s.emit (w.setWidth 128)).respond .done)
    else storeChecked a w s

/-! ### Range query -/

/-- The entry of an instruction-shaped text: its base-32 value, if that fits 32 bits (43 R292). -/
def instructionEntry (a : Nat) (t : Text) (fmt : Format) : MemoryEntry :=
  match base32Word t with
  | .ok w =>
    { address := hexN a 8, format := fmt, valid := true, error := none
      value := some (render (w.setWidth 128) fmt), isInstruction := true
      instructionWord := some (hexN w.toNat 8), decoded := some (decodeRecord w) }
  | .error _ =>
    { address := hexN a 8, format := fmt, valid := false, error := some .invalidDigit, value := none
      isInstruction := true, instructionWord := none, decoded := none }

/-- The entry of any other text: its `parse` value, if it has one (43 R292). -/
def wordEntry (a : Nat) (t : Text) (fmt : Format) : MemoryEntry :=
  match parse t with
  | .ok v =>
    { address := hexN a 8, format := fmt, valid := true, error := none, value := some (render v fmt)
      isInstruction := false, instructionWord := none, decoded := none }
  | .error _ =>
    { address := hexN a 8, format := fmt, valid := false, error := some .invalidNumeral, value := none
      isInstruction := false, instructionWord := none, decoded := none }

/-- `entryOf(a, t, fmt)` (43 R292). -/
def entryOf (a : Nat) (t : Text) (fmt : Format) : MemoryEntry :=
  if looksLikeInstruction t then instructionEntry a t fmt else wordEntry a t fmt

/-- How many strides a query visits: every `k` with `16 k < length` and `start + 16 k < 2^32` (43 R291, 70 R375). -/
def strideCount (start : Addr) (length : Nat) : Nat :=
  min ((length + 15) / 16) ((Config.addrSpace - start.toNat + 15) / 16)

/-- The entries of a query, in ascending address order; absent keys are skipped and no check is made (43 R291,
R293). -/
def queryEntries (m : Memory) (start : Addr) (length : Nat) (fmt : Format) : List MemoryEntry :=
  (List.range (strideCount start length)).filterMap fun k =>
    (m.read (start.toNat + Config.queryStride * k)).map fun t =>
      entryOf (start.toNat + Config.queryStride * k) t fmt

/-- `queryRange(start, length, fmt)` (43 R291). -/
def queryRange (start : Addr) (length : Nat) (fmt : Format) (s : State) : StepOutcome :=
  .next (s.respond (.entries (queryEntries s.store start length fmt)))

/-- The boundary's single-address query (43 R306), in the default format when none is named (43 R307). -/
def singleAddressQuery (a : Addr) (fmt : Format := defaultFormat) : Request := .queryRange a 16 fmt

/-- The boundary's range query with no explicit start and length (43 R306, R307). -/
def defaultRangeQuery (fmt : Format := defaultFormat) : Request := .queryRange 0 0x100 fmt

/-! ### Introspection -/

/-- `info()` (43 R300). -/
def info (s : State) : StepOutcome :=
  .next (s.respond (.info
    { totalSize := s.params.capacity, usedAddressCount := s.store.count, storageKind := s.params.storageKind }))

end Sys2Proof.Machine
end

