-- ==== Sys2Proof/Machine/ImmediateFormat.lean ====
section
/-! DEFINITION. The immediate-format instructions (spec/41_instruction_decode.md R207 to R210). No effective address, memory
access or branch target is computed; the immediate is reported raw. -/

namespace Sys2Proof.Machine

/-- `lw` (41 R207): the record of an immediate-format word with its fields as extracted; execution effect: none. -/
def execLw (rs rt : RegIndex) (imm : BitVec 16) (s : State) : StepOutcome := reportDecoded (.lw rs rt imm) s

/-- `sw` (41 R208): the record of an immediate-format word with its fields as extracted; execution effect: none. -/
def execSw (rs rt : RegIndex) (imm : BitVec 16) (s : State) : StepOutcome := reportDecoded (.sw rs rt imm) s

/-- `beq` (41 R209): the record of an immediate-format word with its fields as extracted; execution effect: none. -/
def execBeq (rs rt : RegIndex) (imm : BitVec 16) (s : State) : StepOutcome := reportDecoded (.beq rs rt imm) s

/-- `bne` (41 R210): the record of an immediate-format word with its fields as extracted; execution effect: none. -/
def execBne (rs rt : RegIndex) (imm : BitVec 16) (s : State) : StepOutcome := reportDecoded (.bne rs rt imm) s

end Sys2Proof.Machine
end

