-- ==== Sys2Proof/Machine/JumpFormat.lean ====
section
/-! DEFINITION. The jump-format instructions (spec/41_instruction_decode.md R211, R212). No jump target and no link value is
computed; the address field is reported raw. -/

namespace Sys2Proof.Machine

/-- `j` (41 R211): the record of a jump-format word with its address field as extracted; execution effect: none. -/
def execJ (addr : BitVec 26) (s : State) : StepOutcome := reportDecoded (.j addr) s

/-- `jal` (41 R212): the record of a jump-format word with its address field as extracted; execution effect: none. -/
def execJal (addr : BitVec 26) (s : State) : StepOutcome := reportDecoded (.jal addr) s

end Sys2Proof.Machine
end

