-- ==== Sys2Proof/Machine/RegisterFormat.lean ====
section
/-! DEFINITION. The register-format instructions (spec/41_instruction_decode.md R194 to R206). The block does not execute
them (R193): each one's effect is that its decoded record is the response. -/

namespace Sys2Proof.Machine

/-- `add` (41 R194): the record of a register-format word with its fields as extracted; execution effect: none. -/
def execAdd (rs rt rd shamt : RegIndex) (s : State) : StepOutcome := reportDecoded (.add rs rt rd shamt) s

/-- `sub` (41 R195): the record of a register-format word with its fields as extracted; execution effect: none. -/
def execSub (rs rt rd shamt : RegIndex) (s : State) : StepOutcome := reportDecoded (.sub rs rt rd shamt) s

/-- `mult` (41 R196): the record of a register-format word with its fields as extracted; execution effect: none. -/
def execMult (rs rt rd shamt : RegIndex) (s : State) : StepOutcome := reportDecoded (.mult rs rt rd shamt) s

/-- `multu` (41 R197): the record of a register-format word with its fields as extracted; execution effect: none. -/
def execMultu (rs rt rd shamt : RegIndex) (s : State) : StepOutcome := reportDecoded (.multu rs rt rd shamt) s

/-- `div` (41 R198): the record of a register-format word with its fields as extracted; execution effect: none. -/
def execDiv (rs rt rd shamt : RegIndex) (s : State) : StepOutcome := reportDecoded (.div rs rt rd shamt) s

/-- `divu` (41 R199): the record of a register-format word with its fields as extracted; execution effect: none. -/
def execDivu (rs rt rd shamt : RegIndex) (s : State) : StepOutcome := reportDecoded (.divu rs rt rd shamt) s

/-- `mfhi` (41 R200): the record of a register-format word with its fields as extracted; execution effect: none. -/
def execMfhi (rs rt rd shamt : RegIndex) (s : State) : StepOutcome := reportDecoded (.mfhi rs rt rd shamt) s

/-- `mflo` (41 R201): the record of a register-format word with its fields as extracted; execution effect: none. -/
def execMflo (rs rt rd shamt : RegIndex) (s : State) : StepOutcome := reportDecoded (.mflo rs rt rd shamt) s

/-- `lis` (41 R202): the record of a register-format word with its fields as extracted; execution effect: none. -/
def execLis (rs rt rd shamt : RegIndex) (s : State) : StepOutcome := reportDecoded (.lis rs rt rd shamt) s

/-- `jr` (41 R203): the record of a register-format word with its fields as extracted; execution effect: none. -/
def execJr (rs rt rd shamt : RegIndex) (s : State) : StepOutcome := reportDecoded (.jr rs rt rd shamt) s

/-- `jalr` (41 R204): the record of a register-format word with its fields as extracted; execution effect: none. -/
def execJalr (rs rt rd shamt : RegIndex) (s : State) : StepOutcome := reportDecoded (.jalr rs rt rd shamt) s

/-- `slt` (41 R205): the record of a register-format word with its fields as extracted; execution effect: none. -/
def execSlt (rs rt rd shamt : RegIndex) (s : State) : StepOutcome := reportDecoded (.slt rs rt rd shamt) s

/-- `sltu` (41 R206): the record of a register-format word with its fields as extracted; execution effect: none. -/
def execSltu (rs rt rd shamt : RegIndex) (s : State) : StepOutcome := reportDecoded (.sltu rs rt rd shamt) s

end Sys2Proof.Machine
end

