-- ==== Sys2Proof/Machine/Unrecognized.lean ====
section
/-! DEFINITION. The unrecognized words (spec/41_instruction_decode.md R213 to R217): they decode with a synthesized name and
raise nothing (R128). -/

namespace Sys2Proof.Machine

/-- An unrecognized register-format word (41 R213, R215). -/
def execUnknownR (rs rt rd shamt : RegIndex) (funct : BitVec 6) (s : State) : StepOutcome :=
  reportDecoded (.unknownR rs rt rd shamt funct) s

/-- An unrecognized immediate-format word (41 R214, R216). -/
def execUnknownI (opcode : BitVec 6) (rs rt : RegIndex) (imm : BitVec 16) (s : State) : StepOutcome :=
  reportDecoded (.unknownI opcode rs rt imm) s

end Sys2Proof.Machine
end

