-- ==== Sys2Proof/Machine/Dispatch.lean ====
section
/-! DEFINITION. One arm per instruction, each a direct call of its meaning. -/

namespace Sys2Proof.Machine

def exec (i : Instr) (s : State) : Host.Outcome State Fault Refusal :=
  match i with
  | .add rs rt rd shamt => Sys2Proof.Machine.execAdd rs rt rd shamt s
  | .sub rs rt rd shamt => Sys2Proof.Machine.execSub rs rt rd shamt s
  | .mult rs rt rd shamt => Sys2Proof.Machine.execMult rs rt rd shamt s
  | .multu rs rt rd shamt => Sys2Proof.Machine.execMultu rs rt rd shamt s
  | .div rs rt rd shamt => Sys2Proof.Machine.execDiv rs rt rd shamt s
  | .divu rs rt rd shamt => Sys2Proof.Machine.execDivu rs rt rd shamt s
  | .mfhi rs rt rd shamt => Sys2Proof.Machine.execMfhi rs rt rd shamt s
  | .mflo rs rt rd shamt => Sys2Proof.Machine.execMflo rs rt rd shamt s
  | .lis rs rt rd shamt => Sys2Proof.Machine.execLis rs rt rd shamt s
  | .jr rs rt rd shamt => Sys2Proof.Machine.execJr rs rt rd shamt s
  | .jalr rs rt rd shamt => Sys2Proof.Machine.execJalr rs rt rd shamt s
  | .slt rs rt rd shamt => Sys2Proof.Machine.execSlt rs rt rd shamt s
  | .sltu rs rt rd shamt => Sys2Proof.Machine.execSltu rs rt rd shamt s
  | .lw rs rt imm => Sys2Proof.Machine.execLw rs rt imm s
  | .sw rs rt imm => Sys2Proof.Machine.execSw rs rt imm s
  | .beq rs rt imm => Sys2Proof.Machine.execBeq rs rt imm s
  | .bne rs rt imm => Sys2Proof.Machine.execBne rs rt imm s
  | .j addr => Sys2Proof.Machine.execJ addr s
  | .jal addr => Sys2Proof.Machine.execJal addr s
  | .unknownR rs rt rd shamt funct => Sys2Proof.Machine.execUnknownR rs rt rd shamt funct s
  | .unknownI opcode rs rt imm => Sys2Proof.Machine.execUnknownI opcode rs rt imm s

end Sys2Proof.Machine
end

