-- ==== Sys2Proof/Machine/Requests.lean ====
section
/-! DEFINITION. What the block does with each request and each host event (spec/00_scope.md R6, R14). -/

namespace Sys2Proof.Machine

/-! ### The encoders' requests: a negative operand is refused before anything else is looked at (42 R242) -/

/-- The request `encodeRegisterFormat` (42 R240, R242). -/
def performEncodeRegister (opcode rs rt rd shamt funct : Int) (s : State) : StepOutcome :=
  match firstNegative
      [(.opcode, opcode), (.rs, rs), (.rt, rt), (.rd, rd), (.shamt, shamt), (.funct, funct)] with
  | some f => .refused (.negativeField f)
  | none =>
    .next (s.respond (.instruction
      (encodeRegisterFormat opcode.toNat rs.toNat rt.toNat rd.toNat shamt.toNat funct.toNat)))

/-- The request `encodeImmediateFormat` (42 R241, R242). -/
def performEncodeImmediate (opcode rs rt immediate : Int) (s : State) : StepOutcome :=
  match firstNegative [(.opcode, opcode), (.rs, rs), (.rt, rt), (.immediate, immediate)] with
  | some f => .refused (.negativeField f)
  | none =>
    .next (s.respond (.instruction (encodeImmediateFormat opcode.toNat rs.toNat rt.toNat immediate.toNat)))

/-- The request `encodeRegisterFormatStrict` (42 R244, R242). -/
def performEncodeRegisterStrict (opcode rs rt rd shamt funct : Int) (s : State) : StepOutcome :=
  match firstNegative
      [(.opcode, opcode), (.rs, rs), (.rt, rt), (.rd, rd), (.shamt, shamt), (.funct, funct)] with
  | some f => .refused (.negativeField f)
  | none =>
    answer ((encodeRegisterFormatStrict opcode.toNat rs.toNat rt.toNat rd.toNat shamt.toNat funct.toNat).map
      .instruction) s

/-- The request `encodeImmediateFormatStrict` (42 R245, R242). -/
def performEncodeImmediateStrict (opcode rs rt immediate : Int) (s : State) : StepOutcome :=
  match firstNegative [(.opcode, opcode), (.rs, rs), (.rt, rt), (.immediate, immediate)] with
  | some f => .refused (.negativeField f)
  | none =>
    answer ((encodeImmediateFormatStrict opcode.toNat rs.toNat rt.toNat immediate.toNat).map .instruction) s

/-- Performs one request, as one indivisible step (00 R6, 20 R87). The decode request runs the instruction its word
stands for. -/
def perform (r : Request) (s : State) : StepOutcome :=
  match r with
  | .parse t => answer ((parse t).map .word) s
  | .toHex v => answer (.ok (.text (toHex v))) s
  | .toDecimal v => answer (.ok (.text (toDecimal v))) s
  | .toBinary v => answer (.ok (.text (toBinary v))) s
  | .toBase32 v => answer (.ok (.text (toBase32 v))) s
  | .fromBase32 t => answer ((fromBase32 t).map .word) s
  | .render v fmt => answer (.ok (.text (render v fmt))) s
  | .decode w => exec (decodeWord w) s
  | .encodeRegisterFormat opcode rs rt rd shamt funct => performEncodeRegister opcode rs rt rd shamt funct s
  | .encodeImmediateFormat opcode rs rt immediate => performEncodeImmediate opcode rs rt immediate s
  | .encodeRegisterFormatStrict opcode rs rt rd shamt funct =>
    performEncodeRegisterStrict opcode rs rt rd shamt funct s
  | .encodeImmediateFormatStrict opcode rs rt immediate => performEncodeImmediateStrict opcode rs rt immediate s
  | .encodeInstructionText w => answer (.ok (.text (encodeInstructionText w))) s
  | .decodeInstructionText t => answer ((decodeInstructionText t).map .decoded) s
  | .looksLikeInstruction t => answer (.ok (.verdict (looksLikeInstruction t))) s
  | .loadWord a => loadWord a s
  | .storeWord a v => storeWord a v s
  | .fetchInstruction a => fetchInstruction a s
  | .storeInstruction a w => storeInstruction a w s
  | .queryRange start length fmt => queryRange start length fmt s
  | .info => info s

/-- What a host event does: a request is performed (00 R6), an overlapping one is refused (20 R94), a replacement of
the store changes the store alone and gives no response (70 R364). -/
def handleEvent (e : HostEvent) (s : State) : StepOutcome :=
  match e with
  | .request r => perform r s
  | .overlapping _ _ => .refused .concurrentRequest
  | .replaceStore entries => .next (s.replaceStore entries)

/-- One step: the oldest event is taken from the inbox and handled; with none, the block waits unchanged, since
nothing changes state between operations (70 R362). -/
def stepOnce (s : State) : StepOutcome :=
  match s.inbox with
  | [] => .next s
  | e :: rest => handleEvent e (s.takeEvent rest)

/-- The request by which an instruction's bits are presented to the decoder; bits above `nbits` are 0. -/
def decodeRequest (nbits w : Nat) : HostEvent := .request (.decode (BitVec.ofNat 32 (w % 2 ^ nbits)))

end Sys2Proof.Machine
end

