-- ==== Sys2Proof/Machine/Step.lean ====
section
/-! DEFINITION. The step of the machine, and the presentation of an instruction to it. -/

namespace Sys2Proof.Machine

/-- One step of the block: the next host event (00 R6, 20 R91). -/
def step (s : State) : Host.Outcome State Fault Refusal := stepOnce s

/-- The state with an instruction presented so that the very next step runs it. The block fetches nothing by itself:
it has no program counter (10 R42). An instruction comes to it as the word of a decode request, so the request is put
before every other event (log entry 14). -/
def State.withFetchWord (s : State) (nbits w : Nat) : State :=
  { s with inbox := decodeRequest nbits w :: s.inbox }

end Sys2Proof.Machine
end

