-- ==== Sys2Proof/Machine/Flags.lean ====
section
/-! DEFINITION. The block has no status flags and no condition codes (spec/10_state.md R43). What it has is a status
code in each response (spec/60_exceptions.md R320), computed here. -/

namespace Sys2Proof.Machine

/-- The code of an error (60 R320). -/
def errorCode : OpError → Nat
  | .outOfBounds _ _ => 1
  | .misaligned _ _ => 2
  | .invalidNumeral _ => 3
  | .invalidDigit _ => 4
  | .fieldOutOfRange _ _ => 5

/-- The status code of a response: 0 for success (60 R320). -/
def statusCode : Response → Nat
  | .done => 0
  | .word _ => 0
  | .instruction _ => 0
  | .text _ => 0
  | .verdict _ => 0
  | .decoded _ => 0
  | .entries _ => 0
  | .info _ => 0
  | .error e => errorCode e

end Sys2Proof.Machine
end

