-- ==== Sys2Proof/Safety.lean ====
section
/-! DEFINITION. The terms claims are stated in: what a safe step is, what the block writes, and a second reading of
the spec's tables and grammars, written from the spec apart from the definitions the machine runs. -/

namespace Sys2Proof.Machine

/-! ### Runs -/

/-- A step is safe when it is not refused: the spec gives it a meaning (00 R14, 60 R328). An error is a meaning: it is
delivered in the response (60 R325). -/
def safeStep (s : State) : Prop := ∃ t, step s = .next t

/-- Whether an event is the block's own business: every event but a replacement of the store by the host (10 R50,
70 R364). -/
def blockEvent : HostEvent → Bool
  | .request _ => true
  | .overlapping _ _ => true
  | .replaceStore _ => false

/-- Nothing but the response differs (10 R40, 41 R193). -/
def sameButResponse (s t : State) : Prop :=
  t.params = s.params ∧ t.store = s.store ∧ t.out = s.out ∧ t.draws = s.draws ∧ t.inbox = s.inbox

/-! ### What the block writes (10 R48 to R50) -/

/-- A word entry: the canonical hexadecimal text of some 128-bit value (10 R48). -/
def isWordEntry (t : Text) : Prop := ∃ v : Word128, t = toHex v

/-- An instruction entry: the base-32 text of some instruction word (10 R48). -/
def isInstructionEntry (t : Text) : Prop := ∃ w : Word, t = wordToBase32 w

/-- Every entry is one of the two kinds the block writes (10 R50). -/
def blockWritten (m : Memory) : Prop := ∀ p ∈ m, isWordEntry p.2 ∨ isInstructionEntry p.2

/-! ### The opcode tables as the spec prints them, and R190's pseudocode over them -/

/-- `FUNCT_TABLE` (30 R124). -/
def functTable : List (BitVec 6 × Text) :=
  [(0x20#6, text "add"), (0x22#6, text "sub"), (0x18#6, text "mult"), (0x19#6, text "multu"),
   (0x1A#6, text "div"), (0x1B#6, text "divu"), (0x10#6, text "mfhi"), (0x12#6, text "mflo"),
   (0x14#6, text "lis"), (0x08#6, text "jr"), (0x09#6, text "jalr"), (0x2A#6, text "slt"),
   (0x2B#6, text "sltu")]

/-- `OPCODE_TABLE` (30 R125). -/
def opcodeTable : List (BitVec 6 × Text) :=
  [(0x23#6, text "lw"), (0x2B#6, text "sw"), (0x04#6, text "beq"), (0x05#6, text "bne")]

/-- The 19 names of 00 R2. -/
def namedMnemonics : List Text :=
  functTable.map Prod.snd ++ opcodeTable.map Prod.snd ++ [text "j", text "jal"]

/-- `decode(w)` as R190's pseudocode writes it, over the tables. -/
def tableRecord (w : Word) : DecodedInstruction :=
  if w.extractLsb 31 26 = 0x00#6 then
    .register ((functTable.lookup (w.extractLsb 5 0)).getD (synthNameR (w.extractLsb 5 0))) w (w.extractLsb 31 26)
      (w.extractLsb 25 21) (w.extractLsb 20 16) (w.extractLsb 15 11) (w.extractLsb 10 6) (w.extractLsb 5 0)
  else if w.extractLsb 31 26 = 0x02#6 ∨ w.extractLsb 31 26 = 0x03#6 then
    .jump (if w.extractLsb 31 26 = 0x02#6 then text "j" else text "jal") w (w.extractLsb 31 26)
      (w.extractLsb 25 0)
  else
    .immediate ((opcodeTable.lookup (w.extractLsb 31 26)).getD (synthNameI (w.extractLsb 31 26))) w
      (w.extractLsb 31 26) (w.extractLsb 25 21) (w.extractLsb 20 16) (w.extractLsb 15 0)

/-! ### The grammars of texts by character codes (00 R12, 40 R151, R160, R163) -/

/-- A character of `DEC`. -/
def isDecChar (c : AsciiChar) : Bool := decide (ascii '0' ≤ c) && decide (c ≤ ascii '9')

/-- A character of `HEXL` or `HEXU`. -/
def isHexChar (c : AsciiChar) : Bool :=
  isDecChar c || (decide (ascii 'a' ≤ c) && decide (c ≤ ascii 'f')) ||
    (decide (ascii 'A' ≤ c) && decide (c ≤ ascii 'F'))

/-- A character of `B32`. -/
def isB32Char (c : AsciiChar) : Bool := isDecChar c || (decide (ascii 'A' ≤ c) && decide (c ≤ ascii 'V'))

/-- The digit a character stands for: a decimal digit its own, a letter 10 and on from its case's `A`. -/
def charDigit (c : AsciiChar) : Nat :=
  if c.val ≤ 57 then c.val - 48 else if c.val ≤ 90 then c.val - 55 else c.val - 87

/-- The value of a text read in a radix, most significant character first. -/
def textValue (base : Nat) (t : Text) : Nat := t.foldl (fun v c => v * base + charDigit c) 0

/-- R151's last two lines: the value, unless it is 2^128 or more. -/
def boundedNumeral (t : Text) (v : Nat) : Except OpError Word128 :=
  if 2 ^ 128 ≤ v then .error (.invalidNumeral t) else .ok (BitVec.ofNat 128 v)

/-- `parse(t)` as R151's pseudocode writes it. -/
def grammarParse (t : Text) : Except OpError Word128 :=
  if 2 ≤ t.length ∧ t[0]? = some (ascii '0') ∧ t[1]? = some (ascii 'x') then
    if t.drop 2 = [] ∨ (t.drop 2).all isHexChar = false then .error (.invalidNumeral t)
    else boundedNumeral t (textValue 16 (t.drop 2))
  else if t ≠ [] ∧ t.all isDecChar = true then boundedNumeral t (textValue 10 t)
  else if t ≠ [] ∧ t.all isHexChar = true then boundedNumeral t (textValue 16 t)
  else .error (.invalidNumeral t)

/-- `fromBase32(t)` as R163's pseudocode writes it. -/
def grammarFromBase32 (t : Text) : Except OpError Word128 :=
  if t = [] then .error (.invalidDigit t)
  else if t.all isB32Char = false then .error (.invalidDigit t)
  else if 2 ^ 128 ≤ textValue 32 t then .error (.invalidDigit t)
  else .ok (BitVec.ofNat 128 (textValue 32 t))

/-! ### The instruction path's ports (43 R282) -/

/-- Where a fetch goes on to the enforcer and the store: at no port; anywhere in mode `ordinary`; at the output port
in mode `special`. -/
def fetchUsesStore (s : State) (a : Addr) : Prop :=
  (a ≠ s.params.outputPort ∧ a ≠ s.params.inputPort) ∨ s.params.instrPortMode = .ordinary ∨
    (s.params.instrPortMode = .special ∧ a ≠ s.params.inputPort)

/-- Where an instruction store goes on to the enforcer and the store: at no port; anywhere in mode `ordinary`; at the
input port in mode `special`. -/
def storeUsesStore (s : State) (a : Addr) : Prop :=
  (a ≠ s.params.outputPort ∧ a ≠ s.params.inputPort) ∨ s.params.instrPortMode = .ordinary ∨
    (s.params.instrPortMode = .special ∧ a ≠ s.params.outputPort)

/-! ### Causes of errors and refusals -/

/-- A checked access of the word path: a load that is not at the input port, or a store that is not at the output port
(20 R75, 60 R321). -/
def wordAccess (s : State) (r : Request) (a : Addr) : Prop :=
  (r = .loadWord a ∧ a ≠ s.params.inputPort) ∨ ∃ v, r = .storeWord a v ∧ a ≠ s.params.outputPort

/-- Why a request may end with an error, by the error (60 R320). -/
def errorCause (s : State) (r : Request) : OpError → Prop
  | .outOfBounds a size =>
    a.toNat < Config.mmioBase ∧ s.params.capacity < a.toNat + size ∧
      ((size = 16 ∧ wordAccess s r a) ∨
        (size = 4 ∧ (r = .fetchInstruction a ∨ ∃ w, r = .storeInstruction a w)))
  | .misaligned a alignment =>
    a.toNat % alignment ≠ 0 ∧
      ((alignment = 16 ∧ wordAccess s r a) ∨
        (alignment = 4 ∧ (r = .fetchInstruction a ∨ ∃ w, r = .storeInstruction a w)))
  | .invalidNumeral t =>
    parse t = .error (.invalidNumeral t) ∧
      (r = .parse t ∨ ∃ a, r = .loadWord a ∧ a ≠ s.params.inputPort ∧ s.store.read a.toNat = some t)
  | .invalidDigit t =>
    (r = .fromBase32 t ∧ fromBase32 t = .error (.invalidDigit t)) ∨
      (base32Word t = .error (.invalidDigit t) ∧
        (r = .decodeInstructionText t ∨ ∃ a, r = .fetchInstruction a ∧ s.store.read a.toNat = some t))
  | .fieldOutOfRange f x =>
    2 ^ (if f = .opcode ∨ f = .funct then 6 else if f = .immediate then 16 else 5) ≤ x ∧
      ((∃ opcode rs rt rd shamt funct : Int, r = .encodeRegisterFormatStrict opcode rs rt rd shamt funct ∧
          (f, (x : Int)) ∈ [(FieldName.opcode, opcode), (.rs, rs), (.rt, rt), (.rd, rd), (.shamt, shamt),
            (.funct, funct)]) ∨
        ∃ opcode rs rt immediate : Int, r = .encodeImmediateFormatStrict opcode rs rt immediate ∧
          (f, (x : Int)) ∈ [(FieldName.opcode, opcode), (.rs, rs), (.rt, rt), (.immediate, immediate)])

/-- Why a step may be refused, by the refusal (60 R333): the event it took and what the spec says of it. -/
def refusalCause (s : State) : Refusal → Prop
  | .kindMismatch a =>
    s.inbox.head? = some (.request (.loadWord a)) ∧ a ≠ s.params.inputPort ∧
      ∃ t, s.store.read a.toNat = some t ∧ looksLikeInstruction t = true
  | .portOnInstructionPath a =>
    (s.inbox.head? = some (.request (.fetchInstruction a)) ∨
        ∃ w, s.inbox.head? = some (.request (.storeInstruction a w))) ∧
      (a = s.params.outputPort ∨ a = s.params.inputPort) ∧ s.params.instrPortMode = .refuse
  | .concurrentRequest => ∃ r r', s.inbox.head? = some (.overlapping r r')
  | .negativeField f =>
    ∃ r, s.inbox.head? = some (.request r) ∧
      ((∃ opcode rs rt rd shamt funct : Int,
          (r = .encodeRegisterFormat opcode rs rt rd shamt funct ∨
            r = .encodeRegisterFormatStrict opcode rs rt rd shamt funct) ∧
          ∃ x < 0, (f, x) ∈ [(FieldName.opcode, opcode), (.rs, rs), (.rt, rt), (.rd, rd), (.shamt, shamt),
            (.funct, funct)]) ∨
        ∃ opcode rs rt immediate : Int,
          (r = .encodeImmediateFormat opcode rs rt immediate ∨
            r = .encodeImmediateFormatStrict opcode rs rt immediate) ∧
          ∃ x < 0, (f, x) ∈ [(FieldName.opcode, opcode), (.rs, rs), (.rt, rt), (.immediate, immediate)])
  | _ => False

end Sys2Proof.Machine
end

