-- ==== Sys2Proof/Certificates/Slice0/Obligations.lean ====
section
/-! DEFINITION. The statements for the provers. Each one's docstring names the rule of spec/ it formalises. -/

open Sys2Proof Sys2Proof.Machine

/-! ### Encoding and decoding -/

/-- 30 R116: the field extractions are the shifts and masks the spec writes. -/
def Obligations.FieldsAreTheSpecifiedBits : Prop :=
  ∀ w : Word,
    (opcodeField w).toNat = (w.toNat >>> 26) &&& 0x3F ∧ (rsField w).toNat = (w.toNat >>> 21) &&& 0x1F ∧
    (rtField w).toNat = (w.toNat >>> 16) &&& 0x1F ∧ (rdField w).toNat = (w.toNat >>> 11) &&& 0x1F ∧
    (shamtField w).toNat = (w.toNat >>> 6) &&& 0x1F ∧ (functField w).toNat = w.toNat &&& 0x3F ∧
    (immField w).toNat = w.toNat &&& 0xFFFF ∧ (addrField w).toNat = w.toNat &&& 0x3FFFFFF

/-- 41 R194 to R199, R205, R206: a register-format word with one of these functs is that instruction with the word's
fields, and the instruction completes with exactly its record as the response; and the worked examples' texts. That
running an instruction is the decoder's report of it is the model's reading (log entry 7); the functs other than
`add`'s are the spec's defaults (log entry 8). -/
def Obligations.ArithmeticWordsReportTheirRecord : Prop :=
  (∀ (w : Word) (s : State), opcodeField w = 0x00#6 →
    (functField w = 0x20#6 →
      decodeWord w = .add (rsField w) (rtField w) (rdField w) (shamtField w) ∧
      exec (.add (rsField w) (rtField w) (rdField w) (shamtField w)) s =
        .next { s with response := some (.decoded (.register (text "add") w 0x00#6 (rsField w) (rtField w)
          (rdField w) (shamtField w) 0x20#6)) }) ∧
    (functField w = 0x22#6 →
      decodeWord w = .sub (rsField w) (rtField w) (rdField w) (shamtField w) ∧
      exec (.sub (rsField w) (rtField w) (rdField w) (shamtField w)) s =
        .next { s with response := some (.decoded (.register (text "sub") w 0x00#6 (rsField w) (rtField w)
          (rdField w) (shamtField w) 0x22#6)) }) ∧
    (functField w = 0x18#6 →
      decodeWord w = .mult (rsField w) (rtField w) (rdField w) (shamtField w) ∧
      exec (.mult (rsField w) (rtField w) (rdField w) (shamtField w)) s =
        .next { s with response := some (.decoded (.register (text "mult") w 0x00#6 (rsField w) (rtField w)
          (rdField w) (shamtField w) 0x18#6)) }) ∧
    (functField w = 0x19#6 →
      decodeWord w = .multu (rsField w) (rtField w) (rdField w) (shamtField w) ∧
      exec (.multu (rsField w) (rtField w) (rdField w) (shamtField w)) s =
        .next { s with response := some (.decoded (.register (text "multu") w 0x00#6 (rsField w) (rtField w)
          (rdField w) (shamtField w) 0x19#6)) }) ∧
    (functField w = 0x1A#6 →
      decodeWord w = .div (rsField w) (rtField w) (rdField w) (shamtField w) ∧
      exec (.div (rsField w) (rtField w) (rdField w) (shamtField w)) s =
        .next { s with response := some (.decoded (.register (text "div") w 0x00#6 (rsField w) (rtField w)
          (rdField w) (shamtField w) 0x1A#6)) }) ∧
    (functField w = 0x1B#6 →
      decodeWord w = .divu (rsField w) (rtField w) (rdField w) (shamtField w) ∧
      exec (.divu (rsField w) (rtField w) (rdField w) (shamtField w)) s =
        .next { s with response := some (.decoded (.register (text "divu") w 0x00#6 (rsField w) (rtField w)
          (rdField w) (shamtField w) 0x1B#6)) }) ∧
    (functField w = 0x2A#6 →
      decodeWord w = .slt (rsField w) (rtField w) (rdField w) (shamtField w) ∧
      exec (.slt (rsField w) (rtField w) (rdField w) (shamtField w)) s =
        .next { s with response := some (.decoded (.register (text "slt") w 0x00#6 (rsField w) (rtField w)
          (rdField w) (shamtField w) 0x2A#6)) }) ∧
    (functField w = 0x2B#6 →
      decodeWord w = .sltu (rsField w) (rtField w) (rdField w) (shamtField w) ∧
      exec (.sltu (rsField w) (rtField w) (rdField w) (shamtField w)) s =
        .next { s with response := some (.decoded (.register (text "sltu") w 0x00#6 (rsField w) (rtField w)
          (rdField w) (shamtField w) 0x2B#6)) })) ∧
  wordToBase32 0x00221820 = text "24610" ∧ wordToBase32 0x00221822 = text "24612" ∧
  wordToBase32 0x00220018 = text "2400O" ∧ wordToBase32 0x00220019 = text "2400P" ∧
  wordToBase32 0x0022001A = text "2400Q" ∧ wordToBase32 0x0022001B = text "2400R" ∧
  wordToBase32 0x0022182A = text "2461A" ∧ wordToBase32 0x0022182B = text "2461B"

/-- 41 R200 to R204: the same for the move, load-immediate and register-jump rows (log entries 7, 8). -/
def Obligations.MoveAndJumpWordsReportTheirRecord : Prop :=
  (∀ (w : Word) (s : State), opcodeField w = 0x00#6 →
    (functField w = 0x10#6 →
      decodeWord w = .mfhi (rsField w) (rtField w) (rdField w) (shamtField w) ∧
      exec (.mfhi (rsField w) (rtField w) (rdField w) (shamtField w)) s =
        .next { s with response := some (.decoded (.register (text "mfhi") w 0x00#6 (rsField w) (rtField w)
          (rdField w) (shamtField w) 0x10#6)) }) ∧
    (functField w = 0x12#6 →
      decodeWord w = .mflo (rsField w) (rtField w) (rdField w) (shamtField w) ∧
      exec (.mflo (rsField w) (rtField w) (rdField w) (shamtField w)) s =
        .next { s with response := some (.decoded (.register (text "mflo") w 0x00#6 (rsField w) (rtField w)
          (rdField w) (shamtField w) 0x12#6)) }) ∧
    (functField w = 0x14#6 →
      decodeWord w = .lis (rsField w) (rtField w) (rdField w) (shamtField w) ∧
      exec (.lis (rsField w) (rtField w) (rdField w) (shamtField w)) s =
        .next { s with response := some (.decoded (.register (text "lis") w 0x00#6 (rsField w) (rtField w)
          (rdField w) (shamtField w) 0x14#6)) }) ∧
    (functField w = 0x08#6 →
      decodeWord w = .jr (rsField w) (rtField w) (rdField w) (shamtField w) ∧
      exec (.jr (rsField w) (rtField w) (rdField w) (shamtField w)) s =
        .next { s with response := some (.decoded (.register (text "jr") w 0x00#6 (rsField w) (rtField w)
          (rdField w) (shamtField w) 0x08#6)) }) ∧
    (functField w = 0x09#6 →
      decodeWord w = .jalr (rsField w) (rtField w) (rdField w) (shamtField w) ∧
      exec (.jalr (rsField w) (rtField w) (rdField w) (shamtField w)) s =
        .next { s with response := some (.decoded (.register (text "jalr") w 0x00#6 (rsField w) (rtField w)
          (rdField w) (shamtField w) 0x09#6)) })) ∧
  wordToBase32 0x00001810 = text "60G" ∧ wordToBase32 0x00001812 = text "60I" ∧
  wordToBase32 0x00001814 = text "60K" ∧ wordToBase32 0x03E00008 = text "1U0008" ∧
  wordToBase32 0x03E00009 = text "1U0009"

/-- 41 R207 to R212: the immediate-format and jump-format rows; the immediate and the address field are reported raw
(log entries 7, 8). -/
def Obligations.ImmediateAndJumpWordsReportTheirRecord : Prop :=
  (∀ (w : Word) (s : State),
    (opcodeField w = 0x23#6 →
      decodeWord w = .lw (rsField w) (rtField w) (immField w) ∧
      exec (.lw (rsField w) (rtField w) (immField w)) s =
        .next { s with response := some (.decoded (.immediate (text "lw") w 0x23#6 (rsField w) (rtField w)
          (immField w))) }) ∧
    (opcodeField w = 0x2B#6 →
      decodeWord w = .sw (rsField w) (rtField w) (immField w) ∧
      exec (.sw (rsField w) (rtField w) (immField w)) s =
        .next { s with response := some (.decoded (.immediate (text "sw") w 0x2B#6 (rsField w) (rtField w)
          (immField w))) }) ∧
    (opcodeField w = 0x04#6 →
      decodeWord w = .beq (rsField w) (rtField w) (immField w) ∧
      exec (.beq (rsField w) (rtField w) (immField w)) s =
        .next { s with response := some (.decoded (.immediate (text "beq") w 0x04#6 (rsField w) (rtField w)
          (immField w))) }) ∧
    (opcodeField w = 0x05#6 →
      decodeWord w = .bne (rsField w) (rtField w) (immField w) ∧
      exec (.bne (rsField w) (rtField w) (immField w)) s =
        .next { s with response := some (.decoded (.immediate (text "bne") w 0x05#6 (rsField w) (rtField w)
          (immField w))) }) ∧
    (opcodeField w = 0x02#6 →
      decodeWord w = .j (addrField w) ∧
      exec (.j (addrField w)) s =
        .next { s with response := some (.decoded (.jump (text "j") w 0x02#6 (addrField w))) }) ∧
    (opcodeField w = 0x03#6 →
      decodeWord w = .jal (addrField w) ∧
      exec (.jal (addrField w)) s =
        .next { s with response := some (.decoded (.jump (text "jal") w 0x03#6 (addrField w))) })) ∧
  wordToBase32 0x8C220004 = text "2624004" ∧ wordToBase32 0xAC220004 = text "2M24004" ∧
  wordToBase32 0x1022FFFF = text "825VVV" ∧ wordToBase32 0x14A00003 = text "AA0003" ∧
  wordToBase32 0x08000000 = text "400000" ∧ wordToBase32 0x0C000001 = text "600001"

/-- 41 R213, R214 with the names of R215, R216: an unrecognized word decodes with a synthesized name and completes
(log entries 7, 8, 9). -/
def Obligations.UnrecognizedWordsReportTheirRecord : Prop :=
  ∀ (w : Word) (s : State),
    (opcodeField w = 0x00#6 → functField w ∉ namedFuncts →
      decodeWord w = .unknownR (rsField w) (rtField w) (rdField w) (shamtField w) (functField w) ∧
      exec (.unknownR (rsField w) (rtField w) (rdField w) (shamtField w) (functField w)) s =
        .next { s with response := some (.decoded (.register
          (text "unknown_funct_" ++ [ascii '0', ascii 'x', digitChar hexDigitsLower ((functField w).toNat / 16),
            digitChar hexDigitsLower ((functField w).toNat % 16)]) w 0x00#6 (rsField w) (rtField w) (rdField w)
          (shamtField w) (functField w))) }) ∧
    (opcodeField w ∉ namedOpcodes →
      decodeWord w = .unknownI (opcodeField w) (rsField w) (rtField w) (immField w) ∧
      exec (.unknownI (opcodeField w) (rsField w) (rtField w) (immField w)) s =
        .next { s with response := some (.decoded (.immediate
          (text "unknown_opcode_" ++ [ascii '0', ascii 'x', digitChar hexDigitsLower ((opcodeField w).toNat / 16),
            digitChar hexDigitsLower ((opcodeField w).toNat % 16)]) w (opcodeField w) (rsField w) (rtField w)
          (immField w))) })

/-- 41 R190: the record the machine gives is the one R190's pseudocode builds from the tables. -/
def Obligations.DecodeFollowsTheTables : Prop :=
  ∀ w : Word, decodeRecord w = tableRecord w

/-- 30 R115, 41 R192: every well-formed instruction is decoded from its encoding, with every operand. -/
def Obligations.DecodeOfEncode : Prop :=
  ∀ i : Instr, i.wellFormed = true → decodeWord (encode i) = i

/-- 30 R115, R128: every word decodes to a well-formed instruction whose encoding it is. -/
def Obligations.EncodeOfDecode : Prop :=
  ∀ w : Word, (decodeWord w).wellFormed = true ∧ encode (decodeWord w) = w

/-- 41 R217: the four properties of the synthesized names. -/
def Obligations.SynthesizedNamesAreDistinct : Prop :=
  ∀ f g : BitVec 6,
    (synthNameR f = synthNameR g → f = g) ∧ (synthNameI f = synthNameI g → f = g) ∧
    synthNameR f ∉ namedMnemonics ∧ synthNameI f ∉ namedMnemonics ∧ synthNameR f ≠ synthNameI g

/-- 41 R218, R219: the decoded fields, packed again by the matching encoder, give the word back. -/
def Obligations.DecodedFieldsRebuildTheWord : Prop :=
  ∀ w : Word,
    (w.extractLsb 31 26 = 0#6 → ∃ m rs rt rd shamt f,
      decodeRecord w = .register m w 0 rs rt rd shamt f ∧
      encodeRegisterFormat 0x00 rs.toNat rt.toNat rd.toNat shamt.toNat f.toNat = w) ∧
    (w.extractLsb 31 26 ≠ 0#6 → w.extractLsb 31 26 ≠ 2#6 → w.extractLsb 31 26 ≠ 3#6 → ∃ m op rs rt imm,
      decodeRecord w = .immediate m w op rs rt imm ∧
      encodeImmediateFormat op.toNat rs.toNat rt.toNat imm.toNat = w) ∧
    (w.extractLsb 31 26 = 2#6 ∨ w.extractLsb 31 26 = 3#6 → ∃ m op addr,
      decodeRecord w = .jump m w op addr ∧
      encodeImmediateFormat op.toNat (addr.toNat >>> 21) ((addr.toNat >>> 16) &&& 0x1F) (addr.toNat &&& 0xFFFF) = w)

/-- 41 R191: decoding is total, never raises, and depends on the word alone: whatever the two states hold, the same
word gets the same record, and each state keeps all the rest. -/
def Obligations.DecodeDependsOnTheWordAlone : Prop :=
  ∀ (w : Word) (s s' : State) (rest rest' : List HostEvent),
    s.inbox = .request (.decode w) :: rest → s'.inbox = .request (.decode w) :: rest' →
    ∃ d t t', step s = .next t ∧ step s' = .next t' ∧
      t = { s with inbox := rest, response := some (.decoded d) } ∧
      t' = { s' with inbox := rest', response := some (.decoded d) }

/-- 41 R193, 30 R128: every instruction completes, with a decoded record as its response, and leaves every other piece
of state, every key of the store included, as it was. That an instruction's meaning is its report is the model's
reading (log entry 7). -/
def Obligations.InstructionsChangeOnlyTheResponse : Prop :=
  ∀ (i : Instr) (s : State), ∃ t d, exec i s = .next t ∧ t.response = some (.decoded d) ∧
    t.params = s.params ∧ (∀ a, t.store.read a = s.store.read a) ∧ t.store.count = s.store.count ∧
    t.out = s.out ∧ t.draws = s.draws ∧ t.inbox = s.inbox

/-- 00 R6, 41 R190: the step of a state whose oldest event is a decode request is the decoded instruction run on the
state with that event taken; and a presented instruction is run by the very next step (log entry 14). -/
def Obligations.StepRunsTheDecodedInstruction : Prop :=
  ∀ (s : State) (w : Word) (rest : List HostEvent),
    (s.inbox = .request (.decode w) :: rest → step s = exec (decodeWord w) { s with inbox := rest }) ∧
    step (s.withFetchWord 32 w.toNat) = exec (decodeWord w) s

/-- 41 R194, R203, R207, R211, R213, R214: words of the spec's vectors decode to the instructions they stand for. -/
def Obligations.SampleWordsDecode : Prop :=
  decodeWord 0x00221820 = .add 1 2 3 0 ∧ decodeWord 0x03E00008 = .jr 31 0 0 0 ∧
  decodeWord 0x8C22FFFF = .lw 1 2 0xFFFF ∧ decodeWord 0x0BFFFFFF = .j 0x3FFFFFF ∧
  decodeWord 0x000007C0 = .unknownR 0 0 0 31 0 ∧ decodeWord 0xFC000000 = .unknownI 0x3F 0 0 0

/-! ### Encoders -/

/-- 42 R240, R241, R243: the permissive encoders reduce every operand modulo 2 to the power of its width and pack. -/
def Obligations.EncodersMaskTheirFields : Prop :=
  ∀ (opcode rs rt rd shamt funct immediate : Nat) (s : State),
    perform (.encodeRegisterFormat opcode rs rt rd shamt funct) s =
      .next { s with response := some (.instruction (BitVec.ofNat 32
        (opcode % 64 * 0x4000000 + rs % 32 * 0x200000 + rt % 32 * 0x10000 + rd % 32 * 0x800 + shamt % 32 * 0x40 +
          funct % 64))) } ∧
    perform (.encodeImmediateFormat opcode rs rt immediate) s =
      .next { s with response := some (.instruction (BitVec.ofNat 32
        (opcode % 64 * 0x4000000 + rs % 32 * 0x200000 + rt % 32 * 0x10000 + immediate % 65536))) }

/-- 42 R244, R245, R246: on in-range operands a strict encoder gives its permissive encoder's word; otherwise it
raises `FieldOutOfRange` for the first out-of-range field in operand order. -/
def Obligations.StrictEncodersRaiseOrAgree : Prop :=
  ∀ (opcode rs rt rd shamt funct immediate : Nat) (s : State),
    perform (.encodeRegisterFormatStrict opcode rs rt rd shamt funct) s =
      .next { s with response := some (
        if 64 ≤ opcode then .error (.fieldOutOfRange .opcode opcode)
        else if 32 ≤ rs then .error (.fieldOutOfRange .rs rs)
        else if 32 ≤ rt then .error (.fieldOutOfRange .rt rt)
        else if 32 ≤ rd then .error (.fieldOutOfRange .rd rd)
        else if 32 ≤ shamt then .error (.fieldOutOfRange .shamt shamt)
        else if 64 ≤ funct then .error (.fieldOutOfRange .funct funct)
        else .instruction (encodeRegisterFormat opcode rs rt rd shamt funct)) } ∧
    perform (.encodeImmediateFormatStrict opcode rs rt immediate) s =
      .next { s with response := some (
        if 64 ≤ opcode then .error (.fieldOutOfRange .opcode opcode)
        else if 32 ≤ rs then .error (.fieldOutOfRange .rs rs)
        else if 32 ≤ rt then .error (.fieldOutOfRange .rt rt)
        else if 65536 ≤ immediate then .error (.fieldOutOfRange .immediate immediate)
        else .instruction (encodeImmediateFormat opcode rs rt immediate)) }

/-- 42 R242, 60 R333: an encoder with a negative operand is refused, `NegativeField`, strict or not. That the name is
the first negative operand's is the model's choice (log entry 11). -/
def Obligations.NegativeOperandsAreRefused : Prop :=
  ∀ (opcode rs rt rd shamt funct immediate : Int) (s : State),
    (opcode < 0 ∨ rs < 0 ∨ rt < 0 ∨ rd < 0 ∨ shamt < 0 ∨ funct < 0 → ∃ f,
      perform (.encodeRegisterFormat opcode rs rt rd shamt funct) s = .refused (.negativeField f) ∧
      perform (.encodeRegisterFormatStrict opcode rs rt rd shamt funct) s = .refused (.negativeField f) ∧
      ∃ x < 0, [(FieldName.opcode, opcode), (.rs, rs), (.rt, rt), (.rd, rd), (.shamt, shamt), (.funct, funct)].find?
        (fun p => decide (p.2 < 0)) = some (f, x)) ∧
    (opcode < 0 ∨ rs < 0 ∨ rt < 0 ∨ immediate < 0 → ∃ f,
      perform (.encodeImmediateFormat opcode rs rt immediate) s = .refused (.negativeField f) ∧
      perform (.encodeImmediateFormatStrict opcode rs rt immediate) s = .refused (.negativeField f) ∧
      ∃ x < 0, [(FieldName.opcode, opcode), (.rs, rs), (.rt, rt), (.immediate, immediate)].find?
        (fun p => decide (p.2 < 0)) = some (f, x))

/-- 42 R248: decoding what an encoder packed from in-range fields gives exactly those fields. -/
def Obligations.DecodeOfEncoderOutput : Prop :=
  (∀ rs rt rd shamt funct : Nat, rs < 32 → rt < 32 → rd < 32 → shamt < 32 → funct < 64 →
    ∃ m, decodeRecord (encodeRegisterFormat 0 rs rt rd shamt funct) =
      .register m (encodeRegisterFormat 0 rs rt rd shamt funct) 0 (BitVec.ofNat 5 rs) (BitVec.ofNat 5 rt)
        (BitVec.ofNat 5 rd) (BitVec.ofNat 5 shamt) (BitVec.ofNat 6 funct)) ∧
  (∀ opcode rs rt imm : Nat, opcode < 64 → opcode ≠ 0 → opcode ≠ 2 → opcode ≠ 3 → rs < 32 → rt < 32 → imm < 65536 →
    ∃ m, decodeRecord (encodeImmediateFormat opcode rs rt imm) =
      .immediate m (encodeImmediateFormat opcode rs rt imm) (BitVec.ofNat 6 opcode) (BitVec.ofNat 5 rs)
        (BitVec.ofNat 5 rt) (BitVec.ofNat 16 imm))

/-- 42 R251: a base-32 text is decoded as the word it denotes; a text that is no base-32 numeral, or whose value does
not fit 32 bits, raises `InvalidDigit`. -/
def Obligations.InstructionTextDecodes : Prop :=
  ∀ (t : Text) (s : State),
    (∀ v, fromBase32 t = .ok v → v.toNat < 2 ^ 32 →
      perform (.decodeInstructionText t) s =
        .next { s with response := some (.decoded (decodeRecord (BitVec.ofNat 32 v.toNat))) }) ∧
    (∀ v, fromBase32 t = .ok v → 2 ^ 32 ≤ v.toNat →
      perform (.decodeInstructionText t) s = .next { s with response := some (.error (.invalidDigit t)) }) ∧
    (∀ e, fromBase32 t = .error e →
      perform (.decodeInstructionText t) s = .next { s with response := some (.error (.invalidDigit t)) })

/-! ### Radix converter -/

/-- 40 R153, R155: `toHex` is `0x` and the 32 lowercase digits, most significant first, and `parse` inverts it. -/
def Obligations.HexTextRoundTrip : Prop :=
  ∀ v : Word128, parse (toHex v) = .ok v ∧ (toHex v).length = 34 ∧ (toHex v).take 2 = [ascii '0', ascii 'x'] ∧
    ∀ i < 32, (toHex v)[33 - i]? = some ((text "0123456789abcdef").getD ((v.toNat >>> (4 * i)) &&& 0xF) (ascii '?'))

/-- 40 R157 and the first sentence of R154: `toDecimal` has digits alone and no leading zero, and `parse` inverts it. -/
def Obligations.DecimalTextRoundTrip : Prop :=
  ∀ v : Word128, parse (toDecimal v) = .ok v ∧ (toDecimal v).all isDecChar = true ∧
    ((toDecimal v).head? = some (ascii '0') → v = 0) ∧ (v = 0 → toDecimal v = [ascii '0']) ∧ (toDecimal v).length ≤ 39

/-- 40 R154: `parse` reads a binary text as a decimal numeral. -/
def Obligations.ParseReadsBinaryTextInDecimal : Prop :=
  ∀ v : Word128,
    (2 ^ 39 ≤ v.toNat → parse (toBinary v) = .error (.invalidNumeral (toBinary v))) ∧
    (v.toNat < 2 ^ 39 → ∃ u, parse (toBinary v) = .ok u ∧
      u.toNat = ∑ i ∈ Finset.range 39, (v.toNat / 2 ^ i % 2) * 10 ^ i ∧ (2 ≤ v.toNat → u ≠ v))

/-- 40 R158: `toBinary` is exactly 128 characters, the bits most significant first. -/
def Obligations.BinaryTextIsTheBits : Prop :=
  ∀ v : Word128, (toBinary v).length = 128 ∧
    ∀ i < 128, (toBinary v)[127 - i]? = some (if v.getLsbD i then ascii '1' else ascii '0')

/-- 40 R161: `toBase32` by its own recurrence, and its lengths. -/
def Obligations.Base32TextByDigits : Prop :=
  (∀ v : Word128, toBase32 v =
    if v.toNat < 32 then [(text "0123456789ABCDEFGHIJKLMNOPQRSTUV").getD v.toNat (ascii '?')]
    else toBase32 (v >>> 5) ++ [(text "0123456789ABCDEFGHIJKLMNOPQRSTUV").getD (v.toNat % 32) (ascii '?')]) ∧
  (∀ v : Word128, ∀ k, 1 ≤ k → 32 ^ (k - 1) ≤ v.toNat → v.toNat < 32 ^ k → (toBase32 v).length = k) ∧
  (∀ v : Word128, (toBase32 v).length ≤ 26 ∧ ((toBase32 v).head? = some (ascii '0') → toBase32 v = [ascii '0'])) ∧
  ∀ w : Word, (wordToBase32 w).length ≤ 7

/-- 40 R165: the round trips of the base-32 codec. -/
def Obligations.Base32RoundTrip : Prop :=
  (∀ n : Word128, fromBase32 (toBase32 n) = .ok n) ∧
  (∀ t : Text, (∃ v, fromBase32 t = .ok v ∧ toBase32 v = t) ↔
    (∃ v, fromBase32 t = .ok v) ∧ (t.head? ≠ some (ascii '0') ∨ t = [ascii '0'])) ∧
  ∃ v, fromBase32 (text "007") = .ok v ∧ toBase32 v = [ascii '7']

/-- 40 R150, R167; 42 R250, R252; 43 R306, R307: the requests of the pure units answer with their functions' values or
errors, `render` is the rendering its format names, and the boundary's standard queries are the ones R306 names. -/
def Obligations.PureRequestsAnswerTheirFunction : Prop :=
  ∀ (v : Word128) (t : Text) (w : Word) (fmt : Format) (s : State),
    perform (.toHex v) s = .next { s with response := some (.text (toHex v)) } ∧
    perform (.toDecimal v) s = .next { s with response := some (.text (toDecimal v)) } ∧
    perform (.toBinary v) s = .next { s with response := some (.text (toBinary v)) } ∧
    perform (.toBase32 v) s = .next { s with response := some (.text (toBase32 v)) } ∧
    perform (.render v fmt) s = .next { s with response := some (.text (match fmt with
      | .hex => toHex v
      | .decimal => toDecimal v
      | .binary => toBinary v
      | .base32 => toBase32 v)) } ∧
    perform (.encodeInstructionText w) s = .next { s with response := some (.text (toBase32 (w.setWidth 128))) } ∧
    perform (.looksLikeInstruction t) s = .next { s with response := some (.verdict (looksLikeInstruction t)) } ∧
    (∀ u, parse t = .ok u → perform (.parse t) s = .next { s with response := some (.word u) }) ∧
    (∀ e, parse t = .error e →
      perform (.parse t) s = .next { s with response := some (.error (.invalidNumeral t)) }) ∧
    (∀ u, fromBase32 t = .ok u → perform (.fromBase32 t) s = .next { s with response := some (.word u) }) ∧
    (∀ e, fromBase32 t = .error e →
      perform (.fromBase32 t) s = .next { s with response := some (.error (.invalidDigit t)) }) ∧
    (∀ a : Addr, singleAddressQuery a = .queryRange a 16 .hex ∧ singleAddressQuery a fmt = .queryRange a 16 fmt) ∧
    defaultRangeQuery = .queryRange 0 0x100 .hex ∧ defaultRangeQuery fmt = .queryRange 0 0x100 fmt

/-- 40 R151; 40 R160, R163: `parse` and `fromBase32` are the functions of their rules' pseudocode. -/
def Obligations.NumeralsFollowTheirGrammars : Prop :=
  ∀ t : Text, parse t = grammarParse t ∧ fromBase32 t = grammarFromBase32 t

/-- 42 R252: the classifier accepts exactly the texts of 1 to 8 characters of the base-32 alphabet. -/
def Obligations.ClassifierFollowsTheRule : Prop :=
  ∀ t : Text, looksLikeInstruction t = true ↔ 1 ≤ t.length ∧ t.length ≤ 8 ∧ ∀ c ∈ t, isB32Char c = true

/-- 10 R49: the two kinds of entry are told apart exactly. -/
def Obligations.EntryKindsAreToldApart : Prop :=
  ∀ t : Text,
    (isWordEntry t → ascii 'x' ∈ t ∧ isB32Char (ascii 'x') = false ∧ looksLikeInstruction t = false) ∧
    (isInstructionEntry t → t.length ≤ 7 ∧ (∀ c ∈ t, isB32Char c = true) ∧ looksLikeInstruction t = true)

/-! ### The enforcer -/

/-- 20 R80: the accepted addresses of both paths, and the highest ordinary ones at the reference capacity. -/
def Obligations.EnforcerAcceptsExactly : Prop :=
  ∀ (p : Params) (a : Addr),
    (enforceWord p a = none ↔ a.toNat % 16 = 0 ∧ (a.toNat + 16 ≤ p.capacity ∨ 0xFFFF0000 ≤ a.toNat)) ∧
    (enforceInstr p a = none ↔ a.toNat % 4 = 0 ∧ (a.toNat + 4 ≤ p.capacity ∨ 0xFFFF0000 ≤ a.toNat)) ∧
    (p.capacity = 0x00800000 →
      enforceWord p 0x007FFFF0 = none ∧ enforceInstr p 0x007FFFFC = none ∧
      (a.toNat < 0xFFFF0000 → enforceWord p a = none → a.toNat ≤ 0x007FFFF0) ∧
      (a.toNat < 0xFFFF0000 → enforceInstr p a = none → a.toNat ≤ 0x007FFFFC))

/-- 20 R76 to R79, R82: an access outside the bounds raises `OutOfBounds` whatever its alignment; one inside them that
is misaligned raises `Misaligned`; on each of the four checked operations, at every address where it is checked: a load
at the output port and a store at the input port among them. -/
def Obligations.ChecksRaiseBoundsFirst : Prop :=
  ∀ (a : Addr) (v : Word128) (w : Word) (s : State),
    (a ≠ s.params.inputPort →
      (¬ (0xFFFF0000 ≤ a.toNat ∨ a.toNat + 16 ≤ s.params.capacity) →
        loadWord a s = .next { s with response := some (.error (.outOfBounds a 16)) }) ∧
      ((0xFFFF0000 ≤ a.toNat ∨ a.toNat + 16 ≤ s.params.capacity) → a.toNat % 16 ≠ 0 →
        loadWord a s = .next { s with response := some (.error (.misaligned a 16)) })) ∧
    (a ≠ s.params.outputPort →
      (¬ (0xFFFF0000 ≤ a.toNat ∨ a.toNat + 16 ≤ s.params.capacity) →
        storeWord a v s = .next { s with response := some (.error (.outOfBounds a 16)) }) ∧
      ((0xFFFF0000 ≤ a.toNat ∨ a.toNat + 16 ≤ s.params.capacity) → a.toNat % 16 ≠ 0 →
        storeWord a v s = .next { s with response := some (.error (.misaligned a 16)) })) ∧
    (fetchUsesStore s a →
      (¬ (0xFFFF0000 ≤ a.toNat ∨ a.toNat + 4 ≤ s.params.capacity) →
        fetchInstruction a s = .next { s with response := some (.error (.outOfBounds a 4)) }) ∧
      ((0xFFFF0000 ≤ a.toNat ∨ a.toNat + 4 ≤ s.params.capacity) → a.toNat % 4 ≠ 0 →
        fetchInstruction a s = .next { s with response := some (.error (.misaligned a 4)) })) ∧
    (storeUsesStore s a →
      (¬ (0xFFFF0000 ≤ a.toNat ∨ a.toNat + 4 ≤ s.params.capacity) →
        storeInstruction a w s = .next { s with response := some (.error (.outOfBounds a 4)) }) ∧
      ((0xFFFF0000 ≤ a.toNat ∨ a.toNat + 4 ≤ s.params.capacity) → a.toNat % 4 ≠ 0 →
        storeInstruction a w s = .next { s with response := some (.error (.misaligned a 4)) }))

/-- 20 R81: a 32-bit sum and an unbounded sum give the same verdict for both access sizes. -/
def Obligations.NoAddressComputationWraps : Prop :=
  ∀ (p : Params) (a : Addr) (n : Nat), n = 4 ∨ n = 16 →
    (boundsOK p a n = true ↔ 0xFFFF0000 ≤ a.toNat ∨ (a + BitVec.ofNat 32 n).toNat ≤ p.capacity) ∧
    (a.toNat < 0xFFFF0000 → a.toNat + n < 2 ^ 32)

/-! ### The address space -/

/-- 43 R270, R272: the outcome of a word load that passes the enforcer, by what its key holds. -/
def Obligations.LoadWordByEntry : Prop :=
  ∀ (a : Addr) (s : State), a ≠ s.params.inputPort → a.toNat % 16 = 0 →
    (a.toNat + 16 ≤ s.params.capacity ∨ 0xFFFF0000 ≤ a.toNat) →
    (s.store.read a.toNat = none → loadWord a s = .next { s with response := some (.word 0) }) ∧
    ∀ t, s.store.read a.toNat = some t →
      (looksLikeInstruction t = true → loadWord a s = .refused (.kindMismatch a)) ∧
      (looksLikeInstruction t = false →
        (∀ v, parse t = .ok v → loadWord a s = .next { s with response := some (.word v) }) ∧
        (∀ e, parse t = .error e → loadWord a s = .next { s with response := some (.error (.invalidNumeral t)) }))

/-- 43 R275, R271; 20 R82: a word store that passes the enforcer, at any address but the output port, writes the
canonical text at its key and changes nothing else but the response; a load of that address reads the word back
exactly, unless it is the input port, whose loads never read the store. -/
def Obligations.StoredWordIsLoaded : Prop :=
  ∀ (a : Addr) (v : Word128) (s : State), a ≠ s.params.outputPort → a.toNat % 16 = 0 →
    (a.toNat + 16 ≤ s.params.capacity ∨ 0xFFFF0000 ≤ a.toNat) →
    ∃ t, storeWord a v s = .next t ∧ t.store.read a.toNat = some (toHex v) ∧
      (∀ b, b ≠ a.toNat → t.store.read b = s.store.read b) ∧ t.params = s.params ∧ t.out = s.out ∧
      t.draws = s.draws ∧ t.inbox = s.inbox ∧ t.response = some .done ∧
      (a ≠ s.params.inputPort → loadWord a t = .next { t with response := some (.word v) })

/-- 43 R280, R283, R284; 20 R95: an instruction store that goes to the store and passes the enforcer writes the base-32
text at its key and changes nothing else but the response; where a fetch goes to the store too, it reads the word back
exactly, with nothing required in between. -/
def Obligations.StoredInstructionIsFetched : Prop :=
  ∀ (a : Addr) (w : Word) (s : State), storeUsesStore s a → a.toNat % 4 = 0 →
    (a.toNat + 4 ≤ s.params.capacity ∨ 0xFFFF0000 ≤ a.toNat) →
    ∃ t, storeInstruction a w s = .next t ∧ t.store.read a.toNat = some (toBase32 (w.setWidth 128)) ∧
      (∀ b, b ≠ a.toNat → t.store.read b = s.store.read b) ∧ t.params = s.params ∧ t.out = s.out ∧
      t.draws = s.draws ∧ t.inbox = s.inbox ∧ t.response = some .done ∧
      (fetchUsesStore s a → fetchInstruction a t = .next { t with response := some (.instruction w) })

/-- 43 R272, R281; 70 R371: at one key, a fetch after a word store raises `InvalidDigit`, and a load after an
instruction store is refused. -/
def Obligations.MixedKindsAreNotReinterpreted : Prop :=
  ∀ (a : Addr) (v : Word128) (w : Word) (s : State), a.toNat % 16 = 0 →
    (a.toNat + 16 ≤ s.params.capacity ∨ 0xFFFF0000 ≤ a.toNat) →
    (a ≠ s.params.outputPort → fetchUsesStore s a → ∃ t, storeWord a v s = .next t ∧
      fetchInstruction a t = .next { t with response := some (.error (.invalidDigit (toHex v))) }) ∧
    (a ≠ s.params.inputPort → storeUsesStore s a → ∃ t, storeInstruction a w s = .next t ∧
      loadWord a t = .refused (.kindMismatch a))

/-- 43 R280, R281, R285; 30 R129: what a fetch that goes to the store and passes the enforcer answers, by what its key
holds; the all-zero word of an absent key decodes with a synthesized name. -/
def Obligations.FetchInstructionByEntry : Prop :=
  (∀ (a : Addr) (s : State), fetchUsesStore s a → a.toNat % 4 = 0 →
    (a.toNat + 4 ≤ s.params.capacity ∨ 0xFFFF0000 ≤ a.toNat) →
    (s.store.read a.toNat = none → fetchInstruction a s = .next { s with response := some (.instruction 0) }) ∧
    ∀ t, s.store.read a.toNat = some t →
      (∀ v, fromBase32 t = .ok v → v.toNat < 2 ^ 32 →
        fetchInstruction a s = .next { s with response := some (.instruction (BitVec.ofNat 32 v.toNat)) }) ∧
      (∀ v, fromBase32 t = .ok v → 2 ^ 32 ≤ v.toNat →
        fetchInstruction a s = .next { s with response := some (.error (.invalidDigit t)) }) ∧
      (∀ e, fromBase32 t = .error e →
        fetchInstruction a s = .next { s with response := some (.error (.invalidDigit t)) })) ∧
  recordMnemonic (decodeRecord 0) = text "unknown_funct_0x00"

/-- 43 R275, 10 R46, 20 R75: a word store at the output port is never checked, appends its value to `OUT`, and stores
nothing. -/
def Obligations.OutputPortEmits : Prop :=
  ∀ (v : Word128) (s : State), perform (.storeWord s.params.outputPort v) s =
    .next { s with out := s.out ++ [v], response := some .done }

/-- 43 R270, 10 R45: a word load at the input port is never checked, answers the next draw and consumes it. That the
draw is the free value `Config.draw` at the draw counter is the model's choice (log entry 4). -/
def Obligations.InputPortDraws : Prop :=
  ∀ s : State, perform (.loadWord s.params.inputPort) s =
    .next { s with draws := s.draws + 1, response := some (.word (Config.draw s.draws)) }

/-- 43 R282: the ports on the instruction path in each mode. That a draw is `Config.draw` at the draw counter is the
model's choice (log entry 4). -/
def Obligations.InstructionPathPorts : Prop :=
  ∀ (a : Addr) (w : Word) (s : State), (a = s.params.outputPort ∨ a = s.params.inputPort) →
    (s.params.instrPortMode = .refuse →
      storeInstruction a w s = .refused (.portOnInstructionPath a) ∧
      fetchInstruction a s = .refused (.portOnInstructionPath a)) ∧
    (s.params.instrPortMode = .special → a = s.params.outputPort →
      storeInstruction a w s = .next { s with out := s.out ++ [BitVec.ofNat 128 w.toNat], response := some .done }) ∧
    (s.params.instrPortMode = .special → a = s.params.inputPort →
      fetchInstruction a s = .next { s with
        draws := s.draws + 1
        response := some (.instruction (BitVec.ofNat 32 ((Config.draw s.draws).toNat % 2 ^ 32))) }) ∧
    (s.params.instrPortMode = .ordinary ∨ s.params.instrPortMode = .special ∧ a = s.params.inputPort →
      storeInstruction a w s =
        if a.toNat % 4 = 0 then
          .next { s with store := s.store.write a.toNat (wordToBase32 w), response := some .done }
        else .next { s with response := some (.error (.misaligned a 4)) }) ∧
    (s.params.instrPortMode = .ordinary ∨ s.params.instrPortMode = .special ∧ a = s.params.outputPort →
      (a.toNat % 4 ≠ 0 → fetchInstruction a s = .next { s with response := some (.error (.misaligned a 4)) }) ∧
      (a.toNat % 4 = 0 → s.store.read a.toNat = none →
        fetchInstruction a s = .next { s with response := some (.instruction 0) }) ∧
      ∀ t, a.toNat % 4 = 0 → s.store.read a.toNat = some t →
        (∀ v, fromBase32 t = .ok v → v.toNat < 2 ^ 32 →
          fetchInstruction a s = .next { s with response := some (.instruction (BitVec.ofNat 32 v.toNat)) }) ∧
        (∀ v, fromBase32 t = .ok v → 2 ^ 32 ≤ v.toNat →
          fetchInstruction a s = .next { s with response := some (.error (.invalidDigit t)) }) ∧
        (∀ e, fromBase32 t = .error e →
          fetchInstruction a s = .next { s with response := some (.error (.invalidDigit t)) }))

/-- 43 R291, R293: a query answers one entry for each present key of its strides, in ascending address order, and no
other, and changes nothing else. -/
def Obligations.QueryReportsThePresentStrides : Prop :=
  ∀ (start : Addr) (length : Nat) (fmt : Format) (s : State), ∃ ks : List Nat,
    ks.Pairwise (· < ·) ∧ ks.length ≤ (length + 15) / 16 ∧
    (∀ k, k ∈ ks ↔ 16 * k < length ∧ start.toNat + 16 * k < 2 ^ 32 ∧
      (s.store.read (start.toNat + 16 * k)).isSome = true) ∧
    perform (.queryRange start length fmt) s =
      .next { s with response := some (.entries (ks.map fun k =>
        entryOf (start.toNat + 16 * k) ((s.store.read (start.toNat + 16 * k)).getD []) fmt)) }

/-- 43 R290, R292: the fields of an entry, for any text. -/
def Obligations.EntryFieldsFollowTheText : Prop :=
  ∀ (a : Nat) (t : Text) (fmt : Format),
    (entryOf a t fmt).address = hexN a 8 ∧ (entryOf a t fmt).format = fmt ∧
    (entryOf a t fmt).isInstruction = looksLikeInstruction t ∧
    (looksLikeInstruction t = true → ∃ v, fromBase32 t = .ok v ∧
      (v.toNat < 2 ^ 32 →
        (entryOf a t fmt).valid = true ∧ (entryOf a t fmt).error = none ∧
        (entryOf a t fmt).value = some (render v fmt) ∧
        (entryOf a t fmt).instructionWord = some (hexN v.toNat 8) ∧
        (entryOf a t fmt).decoded = some (decodeRecord (BitVec.ofNat 32 v.toNat))) ∧
      (2 ^ 32 ≤ v.toNat →
        (entryOf a t fmt).valid = false ∧ (entryOf a t fmt).error = some .invalidDigit ∧
        (entryOf a t fmt).value = none ∧ (entryOf a t fmt).instructionWord = none ∧
        (entryOf a t fmt).decoded = none)) ∧
    (looksLikeInstruction t = false →
      (entryOf a t fmt).instructionWord = none ∧ (entryOf a t fmt).decoded = none ∧
      (∀ v, parse t = .ok v → (entryOf a t fmt).valid = true ∧ (entryOf a t fmt).error = none ∧
        (entryOf a t fmt).value = some (render v fmt)) ∧
      (∀ e, parse t = .error e → (entryOf a t fmt).valid = false ∧
        (entryOf a t fmt).error = some .invalidNumeral ∧ (entryOf a t fmt).value = none))

/-- 43 R295: the source's scenario, on a block just constructed with any parameters that hold address 0x1000. -/
def Obligations.SourceScenario : Prop :=
  ∀ p : Params, 0x1004 ≤ p.capacity → ∃ t,
    perform (.storeInstruction 0x1000 0x00000020) (State.construct p) = .next t ∧
    t.store.read 0x1000 = some (text "10") ∧
    ∀ (fmt : Format) (value : Text),
      (fmt, value) ∈ [(Format.base32, text "10"), (.hex, text "0x00000000000000000000000000000020"),
        (.decimal, text "32")] →
      perform (.queryRange 0x1000 0x10 fmt) t = .next { t with response := some (.entries
        [{ address := text "0x00001000", format := fmt, valid := true, error := none, value := some value
           isInstruction := true, instructionWord := some (text "0x00000020")
           decoded := some (.register (text "add") 0x20 0 0 0 0 0 0x20) }]) }

/-- 43 R300: what `info` reports; on a canonical store the count is that of the present keys. -/
def Obligations.InfoCountsThePresentKeys : Prop :=
  ∀ s : State, s.store.wf → ∃ n,
    perform .info s = .next { s with response := some (.info
      { totalSize := s.params.capacity, usedAddressCount := n, storageKind := s.params.storageKind }) } ∧
    n = ((Finset.range (2 ^ 32)).filter fun a => (s.store.read a).isSome = true).card

/-- 70 R364: a host replacement sets the whole store to the given one and changes neither `OUT` nor the parameters.
That the new store is in canonical form rests on the form that is the model's choice (log entry 5); that the later of
two texts at one address stands is the model's choice too (log entry 13). -/
def Obligations.HostReplacementSetsTheStore : Prop :=
  ∀ (s : State) (es : List (Addr × Text)) (rest : List HostEvent), s.inbox = .replaceStore es :: rest →
    ∃ m : Memory, step s = .next { s with inbox := rest, store := m } ∧ m.wf ∧
      ∀ a : Addr, m.read a.toNat = ((es.filter fun e => decide (e.1 = a)).getLast?.map Prod.snd)

/-- 20 R94: a request presented before the response to the one before it is refused. That the host's breach is an
event of its own is the model's choice (log entry 12). -/
def Obligations.OverlappingRequestsAreRefused : Prop :=
  ∀ (s : State) (r r' : Request) (rest : List HostEvent), s.inbox = .overlapping r r' :: rest →
    step s = .refused .concurrentRequest

/-! ### Rules of the whole machine -/

/-- 60 R326: an operation that fails changes no state but the response. -/
def Obligations.FailedOperationsChangeNothing : Prop :=
  ∀ (r : Request) (s t : State) (e : OpError), perform r s = .next t → t.response = some (.error e) →
    t = { s with response := some (.error e) }

/-- 60 R320, R321: every error has one of the causes of R320's table, so an operation that R321 lists never raises. -/
def Obligations.ErrorsHaveTheirListedCause : Prop :=
  ∀ (r : Request) (s t : State) (e : OpError), perform r s = .next t → t.response = some (.error e) →
    errorCause s r e

/-- 70 R362: with no event to take, a step changes nothing. The idle step is the model's own (log entry 1). -/
def Obligations.NothingHappensBetweenOperations : Prop :=
  ∀ s : State, s.inbox = [] → step s = .next s

/-- 60 R325, R328, R333: no step ends in a fault, and a step is refused only for a cause R333 lists.
Refusals end a run without a state (log entry 15). -/
def Obligations.OnlyTheListedRefusals : Prop :=
  ∀ s : State, (∀ f, step s ≠ .fault f) ∧ ∀ x, step s = .refused x → refusalCause s x

/-- 60 R320: the status codes. -/
def Obligations.StatusCodes : Prop :=
  ∀ r : Response, (statusCode r = 0 ↔ ∀ e, r ≠ .error e) ∧
    (∀ a n, statusCode (.error (.outOfBounds a n)) = 1) ∧ (∀ a n, statusCode (.error (.misaligned a n)) = 2) ∧
    (∀ t, statusCode (.error (.invalidNumeral t)) = 3) ∧ (∀ t, statusCode (.error (.invalidDigit t)) = 4) ∧
    ∀ f x, statusCode (.error (.fieldOutOfRange f x)) = 5

/-- 10 R44, 20 R70: every step keeps the store a finite map from addresses to texts in canonical form. The form is
the model's choice (log entry 5). -/
def Obligations.StepKeepsTheStoreCanonical : Prop :=
  ∀ s t : State, s.store.wf → step s = .next t → t.store.wf

/-- 10 R50: every step on the block's own events keeps every entry a word entry or an instruction entry. -/
def Obligations.StepKeepsEntriesBlockWritten : Prop :=
  ∀ s t : State, (∀ e, s.inbox.head? = some e → blockEvent e = true) → blockWritten s.store → step s = .next t →
    blockWritten t.store

/-- 10 R46: the output log only grows, by at most one value a step, and only by a store at the output port (in mode
`special`, an instruction store too). -/
def Obligations.OutputLogOnlyGrows : Prop :=
  ∀ s t : State, step s = .next t →
    t.out = s.out ∨
    (∃ v, t.out = s.out ++ [v] ∧
      (s.inbox.head? = some (.request (.storeWord s.params.outputPort v)) ∨
        (s.params.instrPortMode = .special ∧ ∃ w : Word, v = BitVec.ofNat 128 w.toNat ∧
          s.inbox.head? = some (.request (.storeInstruction s.params.outputPort w)))))

/-- 70 R363: no step on the block's own events makes a key absent. -/
def Obligations.KeysNeverDisappear : Prop :=
  ∀ (s t : State) (a : Nat), (∀ e, s.inbox.head? = some e → blockEvent e = true) → step s = .next t →
    (s.store.read a).isSome = true → (t.store.read a).isSome = true

/-- 20 R91, 10 R47; 43 R275, R283; 70 R364: what a key reads as changes only by a store request at that very address,
to the text of the value stored, or by a host replacement. -/
def Obligations.KeysChangeOnlyByTheirStore : Prop :=
  ∀ (s t : State) (a : Nat), step s = .next t → t.store.read a ≠ s.store.read a →
    (∃ b : Addr, b.toNat = a ∧
      ((∃ v, s.inbox.head? = some (.request (.storeWord b v)) ∧ t.store.read a = some (toHex v)) ∨
       (∃ w, s.inbox.head? = some (.request (.storeInstruction b w)) ∧ t.store.read a = some (wordToBase32 w)))) ∨
    ∃ es, s.inbox.head? = some (.replaceStore es)

/-- 00 R8, 70 R360, 30 R123: no step changes the parameters, nor takes more than the oldest event from the inbox.
The inbox is the model's own (log entry 1). -/
def Obligations.ParametersNeverChange : Prop :=
  ∀ s t : State, step s = .next t → t.params = s.params ∧ t.inbox = s.inbox.tail

/-- 10 R45, R52: a draw is consumed only by a load at the input port (in mode `special`, a fetch too), one a step.
The counter is the model's own (log entry 4). -/
def Obligations.DrawsOnlyAtTheInputPort : Prop :=
  ∀ s t : State, step s = .next t →
    t.draws = s.draws ∨
    (t.draws = s.draws + 1 ∧
      (s.inbox.head? = some (.request (.loadWord s.params.inputPort)) ∨
        (s.params.instrPortMode = .special ∧
          s.inbox.head? = some (.request (.fetchInstruction s.params.inputPort)))))

/-- 10 R44, R46, R53; 70 R360: a block just constructed, with any parameters, has an empty store and an empty output
log, and the reset state is one. -/
def Obligations.ConstructionIsEmpty : Prop :=
  (∀ p : Params, (State.construct p).store = [] ∧ (State.construct p).out = [] ∧ (State.construct p).params = p) ∧
  State.reset = State.construct State.reset.params

/-- The invariants hold at reset (10 R44, R50; 70 R360). The canonical form is the model's choice (log entry 5), and so
is the idle step that the reset state's empty inbox makes (log entry 1). -/
def Obligations.ResetMeetsTheInvariants : Prop :=
  State.reset.store.wf ∧ blockWritten State.reset.store ∧ safeStep State.reset
end

