-- ==== Sys2Proof/Laws/Decode.lean ====
section
/-! SUPPORT. What the field extractions and the packings do to each other, and the packings as numbers. -/

namespace Sys2Proof

theorem opcodeField_toNat (w : Word) : (opcodeField w).toNat = w.toNat / 2 ^ 26 := by
  have := w.isLt
  simp only [opcodeField, BitVec.extractLsb'_toNat, Nat.shiftRight_eq_div_pow]
  omega

theorem rsField_toNat (w : Word) : (rsField w).toNat = w.toNat / 2 ^ 21 % 2 ^ 5 := by
  simp [rsField, BitVec.extractLsb'_toNat, Nat.shiftRight_eq_div_pow]

theorem rtField_toNat (w : Word) : (rtField w).toNat = w.toNat / 2 ^ 16 % 2 ^ 5 := by
  simp [rtField, BitVec.extractLsb'_toNat, Nat.shiftRight_eq_div_pow]

theorem rdField_toNat (w : Word) : (rdField w).toNat = w.toNat / 2 ^ 11 % 2 ^ 5 := by
  simp [rdField, BitVec.extractLsb'_toNat, Nat.shiftRight_eq_div_pow]

theorem shamtField_toNat (w : Word) : (shamtField w).toNat = w.toNat / 2 ^ 6 % 2 ^ 5 := by
  simp [shamtField, BitVec.extractLsb'_toNat, Nat.shiftRight_eq_div_pow]

theorem functField_toNat (w : Word) : (functField w).toNat = w.toNat % 2 ^ 6 := by
  simp [functField, BitVec.extractLsb'_toNat]

theorem immField_toNat (w : Word) : (immField w).toNat = w.toNat % 2 ^ 16 := by
  simp [immField, BitVec.extractLsb'_toNat]

theorem addrField_toNat (w : Word) : (addrField w).toNat = w.toNat % 2 ^ 26 := by
  simp [addrField, BitVec.extractLsb'_toNat]

/-- Appending bits below a value: a shift and an addition. -/
theorem append_toNat {m n : Nat} (x : BitVec m) (y : BitVec n) :
    (x ++ y).toNat = x.toNat * 2 ^ n + y.toNat := by
  rw [BitVec.toNat_append, ← Nat.shiftLeft_add_eq_or_of_lt y.isLt, Nat.shiftLeft_eq]

theorem packRegister_toNat (op : BitVec 6) (rs rt rd shamt : RegIndex) (funct : BitVec 6) :
    (packRegister op rs rt rd shamt funct).toNat =
      op.toNat * 2 ^ 26 + rs.toNat * 2 ^ 21 + rt.toNat * 2 ^ 16 + rd.toNat * 2 ^ 11 + shamt.toNat * 2 ^ 6 +
        funct.toNat := by
  refine (append_toNat (op ++ rs ++ rt ++ rd ++ shamt) funct).trans ?_
  rw [append_toNat, append_toNat, append_toNat, append_toNat]
  omega

theorem packImmediate_toNat (op : BitVec 6) (rs rt : RegIndex) (imm : BitVec 16) :
    (packImmediate op rs rt imm).toNat = op.toNat * 2 ^ 26 + rs.toNat * 2 ^ 21 + rt.toNat * 2 ^ 16 + imm.toNat := by
  refine (append_toNat (op ++ rs ++ rt) imm).trans ?_
  rw [append_toNat, append_toNat]
  omega

theorem packJump_toNat (op : BitVec 6) (addr : BitVec 26) :
    (packJump op addr).toNat = op.toNat * 2 ^ 26 + addr.toNat := by
  exact append_toNat op addr

section Fields

variable (op : BitVec 6) (rs rt rd shamt : RegIndex) (funct : BitVec 6) (imm : BitVec 16) (addr : BitVec 26)

@[simp] theorem opcodeField_packRegister : opcodeField (packRegister op rs rt rd shamt funct) = op := by
  apply BitVec.eq_of_toNat_eq
  have := rs.isLt; have := rt.isLt; have := rd.isLt; have := shamt.isLt; have := funct.isLt
  rw [opcodeField_toNat, packRegister_toNat]; omega

@[simp] theorem rsField_packRegister : rsField (packRegister op rs rt rd shamt funct) = rs := by
  apply BitVec.eq_of_toNat_eq
  have := rs.isLt; have := rt.isLt; have := rd.isLt; have := shamt.isLt; have := funct.isLt
  rw [rsField_toNat, packRegister_toNat]; omega

@[simp] theorem rtField_packRegister : rtField (packRegister op rs rt rd shamt funct) = rt := by
  apply BitVec.eq_of_toNat_eq
  have := rt.isLt; have := rd.isLt; have := shamt.isLt; have := funct.isLt
  rw [rtField_toNat, packRegister_toNat]; omega

@[simp] theorem rdField_packRegister : rdField (packRegister op rs rt rd shamt funct) = rd := by
  apply BitVec.eq_of_toNat_eq
  have := rd.isLt; have := shamt.isLt; have := funct.isLt
  rw [rdField_toNat, packRegister_toNat]; omega

@[simp] theorem shamtField_packRegister : shamtField (packRegister op rs rt rd shamt funct) = shamt := by
  apply BitVec.eq_of_toNat_eq
  have := shamt.isLt; have := funct.isLt
  rw [shamtField_toNat, packRegister_toNat]; omega

@[simp] theorem functField_packRegister : functField (packRegister op rs rt rd shamt funct) = funct := by
  apply BitVec.eq_of_toNat_eq
  have := funct.isLt
  rw [functField_toNat, packRegister_toNat]; omega

@[simp] theorem opcodeField_packImmediate : opcodeField (packImmediate op rs rt imm) = op := by
  apply BitVec.eq_of_toNat_eq
  have := rs.isLt; have := rt.isLt; have := imm.isLt
  rw [opcodeField_toNat, packImmediate_toNat]; omega

@[simp] theorem rsField_packImmediate : rsField (packImmediate op rs rt imm) = rs := by
  apply BitVec.eq_of_toNat_eq
  have := rs.isLt; have := rt.isLt; have := imm.isLt
  rw [rsField_toNat, packImmediate_toNat]; omega

@[simp] theorem rtField_packImmediate : rtField (packImmediate op rs rt imm) = rt := by
  apply BitVec.eq_of_toNat_eq
  have := rt.isLt; have := imm.isLt
  rw [rtField_toNat, packImmediate_toNat]; omega

@[simp] theorem immField_packImmediate : immField (packImmediate op rs rt imm) = imm := by
  apply BitVec.eq_of_toNat_eq
  have := imm.isLt
  rw [immField_toNat, packImmediate_toNat]; omega

@[simp] theorem opcodeField_packJump : opcodeField (packJump op addr) = op := by
  apply BitVec.eq_of_toNat_eq
  have := addr.isLt
  rw [opcodeField_toNat, packJump_toNat]; omega

@[simp] theorem addrField_packJump : addrField (packJump op addr) = addr := by
  apply BitVec.eq_of_toNat_eq
  have := addr.isLt
  rw [addrField_toNat, packJump_toNat]; omega

end Fields

/-- The register format's fields cover the word (30 R115). -/
theorem packRegister_fields (w : Word) :
    packRegister (opcodeField w) (rsField w) (rtField w) (rdField w) (shamtField w) (functField w) = w := by
  apply BitVec.eq_of_toNat_eq
  rw [packRegister_toNat, opcodeField_toNat, rsField_toNat, rtField_toNat, rdField_toNat, shamtField_toNat,
    functField_toNat]
  omega

/-- The immediate format's fields cover the word (30 R115). -/
theorem packImmediate_fields (w : Word) :
    packImmediate (opcodeField w) (rsField w) (rtField w) (immField w) = w := by
  apply BitVec.eq_of_toNat_eq
  rw [packImmediate_toNat, opcodeField_toNat, rsField_toNat, rtField_toNat, immField_toNat]
  omega

/-- The jump format's fields cover the word (30 R115). -/
theorem packJump_fields (w : Word) : packJump (opcodeField w) (addrField w) = w := by
  apply BitVec.eq_of_toNat_eq
  rw [packJump_toNat, opcodeField_toNat, addrField_toNat]
  omega

/-! ### The table lookups -/

/-- A funct in no named row takes the catch-all row. -/
theorem decodeRegister_other (rs rt rd shamt : RegIndex) {f : BitVec 6} (h : f ∉ namedFuncts) :
    decodeRegister rs rt rd shamt f = .unknownR rs rt rd shamt f := by
  unfold decodeRegister
  split <;> first | rfl | (simp [namedFuncts] at h)

/-- An opcode in no named row takes the catch-all row. -/
theorem decodeImmediate_other (rs rt : RegIndex) (imm : BitVec 16) {op : BitVec 6} (h : op ∉ namedOpcodes) :
    decodeImmediate op rs rt imm = .unknownI op rs rt imm := by
  unfold decodeImmediate
  split <;> first | rfl | (simp [namedOpcodes] at h)


/-- Encoding the register row of a funct gives the fields back, and the row is well formed. -/
theorem encode_decodeRegister (rs rt rd shamt : RegIndex) (f : BitVec 6) :
    encode (decodeRegister rs rt rd shamt f) = packRegister 0x00#6 rs rt rd shamt f := by
  unfold decodeRegister
  split <;> simp [encode]

theorem wellFormed_decodeRegister (rs rt rd shamt : RegIndex) (f : BitVec 6) :
    (decodeRegister rs rt rd shamt f).wellFormed = true := by
  unfold decodeRegister
  split <;> first | rfl | (simp [Instr.wellFormed, namedFuncts]; simp_all)

/-- Encoding the immediate row of an opcode gives the fields back. -/
theorem encode_decodeImmediate (op : BitVec 6) (rs rt : RegIndex) (imm : BitVec 16) :
    encode (decodeImmediate op rs rt imm) = packImmediate op rs rt imm := by
  unfold decodeImmediate
  split <;> simp [encode]

/-- An immediate row is well formed when the opcode is the immediate format's. -/
theorem wellFormed_decodeImmediate {op : BitVec 6} (rs rt : RegIndex) (imm : BitVec 16)
    (h0 : op ≠ 0x00#6) (hj : op ≠ 0x02#6) (hl : op ≠ 0x03#6) : (decodeImmediate op rs rt imm).wellFormed = true := by
  unfold decodeImmediate
  split <;> first | rfl | (simp [Instr.wellFormed, namedOpcodes]; simp_all)

end Sys2Proof

namespace Sys2Proof.Machine

/-! ### The permissive encoders as packings -/

theorem shiftLeft_or_eq {a b k : Nat} (hb : b < 2 ^ k) : (a <<< k) ||| b = a * 2 ^ k + b := by
  rw [← Nat.shiftLeft_add_eq_or_of_lt hb, Nat.shiftLeft_eq]

/-- 42 R240: the permissive encoder packs the low bits of each operand. -/
theorem encodeRegisterFormat_eq (opcode rs rt rd shamt funct : Nat) :
    encodeRegisterFormat opcode rs rt rd shamt funct =
      packRegister (BitVec.ofNat 6 opcode) (BitVec.ofNat 5 rs) (BitVec.ofNat 5 rt) (BitVec.ofNat 5 rd)
        (BitVec.ofNat 5 shamt) (BitVec.ofNat 6 funct) := by
  apply BitVec.eq_of_toNat_eq
  rw [packRegister_toNat]
  simp only [encodeRegisterFormat, BitVec.toNat_ofNat]
  rw [Nat.or_assoc, Nat.or_assoc, Nat.or_assoc, Nat.or_assoc,
    shiftLeft_or_eq (a := shamt % 2 ^ 5) (k := 6) (by omega), shiftLeft_or_eq (k := 11) (by omega),
    shiftLeft_or_eq (k := 16) (by omega), shiftLeft_or_eq (k := 21) (by omega),
    shiftLeft_or_eq (k := 26) (by omega)]
  omega

/-- 42 R241: the permissive encoder packs the low bits of each operand. -/
theorem encodeImmediateFormat_eq (opcode rs rt immediate : Nat) :
    encodeImmediateFormat opcode rs rt immediate =
      packImmediate (BitVec.ofNat 6 opcode) (BitVec.ofNat 5 rs) (BitVec.ofNat 5 rt) (BitVec.ofNat 16 immediate) := by
  apply BitVec.eq_of_toNat_eq
  rw [packImmediate_toNat]
  simp only [encodeImmediateFormat, BitVec.toNat_ofNat]
  rw [Nat.or_assoc, Nat.or_assoc, shiftLeft_or_eq (k := 16) (by omega), shiftLeft_or_eq (k := 21) (by omega),
    shiftLeft_or_eq (k := 26) (by omega)]
  omega

end Sys2Proof.Machine
end

