-- ==== Sys2Proof/Laws/Memory.lean ====
section
/-! SUPPORT. The laws of the store: reading after writing, and the canonical form. -/

namespace Sys2Proof.Machine

theorem Memory.read_write_same (m : Memory) (a : Nat) (t : Text) : (m.write a t).read a = some t := by
  induction m with
  | nil => simp [Memory.write, Memory.read]
  | cons p m ih =>
    obtain ⟨k, u⟩ := p
    simp only [Memory.write]
    split
    · simp [Memory.read]
    · split
      · simp [Memory.read]
      · rename_i h1 h2
        simp [Memory.read, Ne.symm h2, ih]

theorem Memory.read_write_other (m : Memory) {a b : Nat} (t : Text) (h : b ≠ a) :
    (m.write a t).read b = m.read b := by
  induction m with
  | nil => simp [Memory.write, Memory.read, Ne.symm h]
  | cons p m ih =>
    obtain ⟨k, u⟩ := p
    simp only [Memory.write]
    split
    · simp [Memory.read, Ne.symm h]
    · split
      · rename_i h1 h2
        subst h2
        simp [Memory.read, Ne.symm h]
      · simp [Memory.read, ih]

/-- What a written store holds: the new pair, or a pair it held before. -/
theorem Memory.mem_write {m : Memory} {a : Nat} {t : Text} {p : Nat × Text} (h : p ∈ m.write a t) :
    p = (a, t) ∨ p ∈ m := by
  induction m with
  | nil => simpa [Memory.write] using h
  | cons q m ih =>
    obtain ⟨k, u⟩ := q
    simp only [Memory.write] at h
    split at h
    · simpa using h
    · split at h
      · rcases List.mem_cons.1 h with h | h
        · exact .inl h
        · exact .inr (List.mem_cons_of_mem _ h)
      · rcases List.mem_cons.1 h with h | h
        · exact .inr (h ▸ List.mem_cons_self)
        · exact (ih h).imp id (List.mem_cons_of_mem _)

/-- A write at an address keeps the canonical form. -/
theorem Memory.write_wf {m : Memory} {a : Nat} (t : Text) (hm : m.wf) (ha : a < Config.addrSpace) :
    (m.write a t).wf := by
  refine ⟨?_, fun p hp => (Memory.mem_write hp).elim (fun h => h ▸ ha) (hm.2 p)⟩
  obtain ⟨hs, -⟩ := hm
  induction m with
  | nil => simp [Memory.write]
  | cons q m ih =>
    obtain ⟨k, u⟩ := q
    obtain ⟨hk, hs'⟩ := List.pairwise_cons.1 hs
    simp only [Memory.write]
    split
    · rename_i h1
      refine List.pairwise_cons.2 ⟨fun p hp => ?_, List.pairwise_cons.2 ⟨hk, hs'⟩⟩
      rcases List.mem_cons.1 hp with rfl | hp
      · exact h1
      · exact lt_trans h1 (hk p hp)
    · split
      · rename_i h1 h2
        subst h2
        exact List.pairwise_cons.2 ⟨hk, hs'⟩
      · rename_i h1 h2
        refine List.pairwise_cons.2 ⟨fun p hp => ?_, ih hs'⟩
        rcases Memory.mem_write hp with rfl | hp
        · exact lt_of_le_of_ne (not_lt.1 h1) (Ne.symm h2)
        · exact hk p hp

/-- A store that a list describes is in canonical form. -/
theorem Memory.ofEntries_wf (es : List (Addr × Text)) : (Memory.ofEntries es).wf := by
  have key : ∀ (es : List (Addr × Text)) (m : Memory), m.wf →
      (es.foldl (fun m e => m.write e.1.toNat e.2) m).wf := by
    intro es
    induction es with
    | nil => exact fun m h => h
    | cons e es ih => exact fun m h => ih _ (Memory.write_wf e.2 h e.1.isLt)
  exact key es [] (by simp [Memory.wf])

/-- The store of a block just constructed, and so of the reset state, is in canonical form. -/
theorem State.construct_store_wf (p : Params) : (State.construct p).store.wf := by
  simp [State.construct, Memory.wf]

/-- A present key is a listed pair. -/
theorem Memory.mem_of_read {m : Memory} {a : Nat} {t : Text} (h : m.read a = some t) : (a, t) ∈ m := by
  induction m with
  | nil => simp [Memory.read] at h
  | cons p m ih =>
    obtain ⟨k, u⟩ := p
    simp only [Memory.read] at h
    split at h
    · rename_i hk
      cases hk
      cases h
      exact List.mem_cons_self
    · exact List.mem_cons_of_mem _ (ih h)

/-- In canonical form a listed pair is what its key reads as. -/
theorem Memory.read_of_mem {m : Memory} {a : Nat} {t : Text} (hm : m.wf) (h : (a, t) ∈ m) :
    m.read a = some t := by
  obtain ⟨hs, -⟩ := hm
  induction m with
  | nil => simp at h
  | cons p m ih =>
    obtain ⟨k, u⟩ := p
    obtain ⟨hk, hs'⟩ := List.pairwise_cons.1 hs
    simp only [Memory.read]
    rcases List.mem_cons.1 h with h | h
    · cases h
      simp
    · rw [if_neg (Nat.ne_of_lt (hk _ h)), ih h hs']

/-- A write makes no key absent. -/
theorem Memory.read_isSome_write (m : Memory) (a b : Nat) (t : Text) (h : (m.read b).isSome) :
    ((m.write a t).read b).isSome := by
  by_cases hb : b = a
  · subst hb
    simp [Memory.read_write_same]
  · rwa [Memory.read_write_other m t hb]

end Sys2Proof.Machine
end

