-- ==== Sys2Proof/Laws/Numeric.lean ====
section
/-! SUPPORT. The laws of positional numerals: digits and their characters, reading what was written, lengths. -/

namespace Sys2Proof.Machine

/-! ### Digits and characters -/

theorem decimalValue_digitChar : ∀ d < 10, decimalValue (digitChar decimalDigits d) = some d := by decide

theorem hexValue_digitChar : ∀ d < 16, hexValue (digitChar hexDigitsLower d) = some d := by decide

theorem base32Value_digitChar : ∀ d < 32, base32Value (digitChar base32Digits d) = some d := by decide

/-- A digit value is a place in the alphabet, and the character there is the one read. -/
theorem digitChar_digitValue {alphabet : Text} {c : AsciiChar} {d : Nat} (h : digitValue alphabet c = some d) :
    d < alphabet.length ∧ digitChar alphabet d = c := by
  simp only [digitValue, List.idxOf?, List.findIdx?_eq_some_iff_getElem] at h
  obtain ⟨hd, hc, -⟩ := h
  refine ⟨hd, ?_⟩
  simp only [beq_iff_eq] at hc
  simp [digitChar, List.getD, hd, hc]

/-- A character has a digit value exactly when the alphabet holds it. -/
theorem digitValue_isSome {alphabet : Text} {c : AsciiChar} : (digitValue alphabet c).isSome = true ↔ c ∈ alphabet := by
  simp [digitValue, List.isSome_idxOf?]

theorem base32Value_lt {c : AsciiChar} {d : Nat} (h : base32Value c = some d) : d < 32 :=
  (digitChar_digitValue h).1

theorem digitChar_base32Value {c : AsciiChar} {d : Nat} (h : base32Value c = some d) : digitChar base32Digits d = c :=
  (digitChar_digitValue h).2

/-! ### Reading -/

/-- The value of a list of digits, most significant first, put after `acc`. -/
abbrev digitsValue (base acc : Nat) (ds : List Nat) : Nat := ds.foldl (fun a d => a * base + d) acc

theorem readDigits_append (base : Nat) (value : AsciiChar → Option Nat) (acc : Nat) (t u : Text) :
    readDigits base value acc (t ++ u) = (readDigits base value acc t).bind fun a => readDigits base value a u := by
  induction t generalizing acc with
  | nil => simp [readDigits]
  | cons c t ih =>
    simp only [List.cons_append, readDigits]
    cases value c <;> simp [ih]

/-- Reading the characters of digits gives their value. -/
theorem readDigits_map {base : Nat} {value : AsciiChar → Option Nat} {alphabet : Text} {ds : List Nat}
    (h : ∀ d ∈ ds, value (digitChar alphabet d) = some d) (acc : Nat) :
    readDigits base value acc (ds.map (digitChar alphabet)) = some (digitsValue base acc ds) := by
  induction ds generalizing acc with
  | nil => rfl
  | cons d ds ih =>
    simp only [List.map_cons, readDigits, h d List.mem_cons_self, digitsValue, List.foldl_cons]
    exact ih (fun e he => h e (List.mem_cons_of_mem _ he)) _

/-- A text that reads as a number has only characters with a value. -/
theorem all_of_readDigits {base : Nat} {value : AsciiChar → Option Nat} {t : Text} {acc v : Nat}
    (h : readDigits base value acc t = some v) : ∀ c ∈ t, (value c).isSome := by
  induction t generalizing acc with
  | nil => simp
  | cons c t ih =>
    simp only [readDigits] at h
    cases hc : value c with
    | none => simp [hc] at h
    | some d =>
      simp only [hc] at h
      intro e he
      rcases List.mem_cons.1 he with rfl | he
      · simp [hc]
      · exact ih h e he

/-- A text of characters with values reads as a number. -/
theorem readDigits_isSome {base : Nat} {value : AsciiChar → Option Nat} {t : Text} (acc : Nat)
    (h : ∀ c ∈ t, (value c).isSome) : (readDigits base value acc t).isSome := by
  induction t generalizing acc with
  | nil => simp [readDigits]
  | cons c t ih =>
    obtain ⟨d, hd⟩ := Option.isSome_iff_exists.1 (h c List.mem_cons_self)
    simp only [readDigits, hd]
    exact ih _ fun e he => h e (List.mem_cons_of_mem _ he)

/-! ### Writing -/

theorem fixedDigits_length (base n v : Nat) : (fixedDigits base n v).length = n := by
  induction n generalizing v with
  | zero => rfl
  | succ n ih => simp [fixedDigits, ih]

theorem fixedDigits_lt {base : Nat} (hb : 0 < base) (n v : Nat) : ∀ d ∈ fixedDigits base n v, d < base := by
  induction n generalizing v with
  | zero => simp [fixedDigits]
  | succ n ih =>
    intro d hd
    simp only [fixedDigits, List.mem_append, List.mem_singleton] at hd
    rcases hd with hd | rfl
    · exact ih _ d hd
    · exact Nat.mod_lt _ hb

theorem fixedDigits_value (base n v acc : Nat) :
    digitsValue base acc (fixedDigits base n v) = acc * base ^ n + v % base ^ n := by
  induction n generalizing v with
  | zero => simp [fixedDigits, digitsValue, Nat.mod_one]
  | succ n ih =>
    simp only [digitsValue] at ih
    simp only [digitsValue, fixedDigits, List.foldl_append, List.foldl_cons, List.foldl_nil, ih]
    rw [Nat.pow_succ', Nat.mod_mul]
    ring

theorem minimalDigits_lt {base : Nat} (hb : 0 < base) (fuel v : Nat) : ∀ d ∈ minimalDigits base fuel v, d < base := by
  induction fuel generalizing v with
  | zero => simp [minimalDigits]
  | succ n ih =>
    intro d hd
    simp only [minimalDigits] at hd
    split at hd
    · simp at hd
    · simp only [List.mem_append, List.mem_singleton] at hd
      rcases hd with hd | rfl
      · exact ih _ d hd
      · exact Nat.mod_lt _ hb

theorem minimalDigits_value {base fuel v : Nat} (hv : v < base ^ fuel) :
    digitsValue base 0 (minimalDigits base fuel v) = v := by
  induction fuel generalizing v with
  | zero => simp at hv; simp [minimalDigits, digitsValue, hv]
  | succ n ih =>
    simp only [minimalDigits]
    split
    · simp_all [digitsValue]
    · have hq : v / base < base ^ n := Nat.div_lt_of_lt_mul (by rwa [← Nat.pow_succ'])
      have h := ih hq
      simp only [digitsValue] at h
      simp only [digitsValue, List.foldl_append, List.foldl_cons, List.foldl_nil, h]
      exact Nat.div_add_mod' v base

theorem minimalDigits_ne_nil {base fuel v : Nat} (hv : v ≠ 0) (hf : fuel ≠ 0) : minimalDigits base fuel v ≠ [] := by
  cases fuel with
  | zero => exact absurd rfl hf
  | succ n => simp [minimalDigits, hv]

/-- A value below `base ^ k` has at most `k` digits. -/
theorem minimalDigits_length_le {base fuel k v : Nat} (hv : v < base ^ k) :
    (minimalDigits base fuel v).length ≤ k := by
  induction fuel generalizing k v with
  | zero => simp [minimalDigits]
  | succ n ih =>
    simp only [minimalDigits]
    split
    · simp
    · cases k with
      | zero => simp at hv; contradiction
      | succ k =>
        have hq : v / base < base ^ k := Nat.div_lt_of_lt_mul (by rwa [← Nat.pow_succ'])
        simp [ih hq]

/-- A value of at least `base ^ k`, with fuel left, has more than `k` digits. -/
theorem lt_minimalDigits_length {base fuel k v : Nat} (hb : 0 < base) (hk : k < fuel) (hv : base ^ k ≤ v) :
    k < (minimalDigits base fuel v).length := by
  induction fuel generalizing k v with
  | zero => omega
  | succ n ih =>
    have hv0 : v ≠ 0 := by have := Nat.pow_pos (n := k) hb; omega
    simp only [minimalDigits, if_neg hv0, List.length_append, List.length_singleton]
    cases k with
    | zero => omega
    | succ k =>
      have := ih (k := k) (v := v / base) (by omega)
        ((Nat.le_div_iff_mul_le hb).2 (by rwa [← Nat.pow_succ]))
      omega

/-- The digit at a place of a fixed-width numeral, the least significant at place 0 from the right. -/
theorem fixedDigits_getElem? (base : Nat) {n i : Nat} (v : Nat) (h : i < n) :
    (fixedDigits base n v)[n - 1 - i]? = some (v / base ^ i % base) := by
  induction n generalizing v i with
  | zero => omega
  | succ n ih =>
    rw [fixedDigits]
    cases i with
    | zero =>
      rw [List.getElem?_append_right (by simp [fixedDigits_length])]
      simp [fixedDigits_length]
    | succ i =>
      rw [List.getElem?_append_left (by rw [fixedDigits_length]; omega)]
      have he : n + 1 - 1 - (i + 1) = n - 1 - i := by omega
      rw [he, ih _ (by omega), Nat.div_div_eq_div_mul, pow_succ']

/-- More fuel than a value needs changes none of its digits. -/
theorem minimalDigits_fuel {base fuel fuel' v : Nat} (h : v < base ^ fuel) (h' : v < base ^ fuel') :
    minimalDigits base fuel v = minimalDigits base fuel' v := by
  induction fuel generalizing fuel' v with
  | zero =>
    have hv : v = 0 := by simpa using h
    cases fuel' <;> simp [minimalDigits, hv]
  | succ n ih =>
    cases fuel' with
    | zero =>
      have hv : v = 0 := by simpa using h'
      simp [minimalDigits, hv]
    | succ m =>
      simp only [minimalDigits]
      rw [ih (Nat.div_lt_of_lt_mul (by rwa [← Nat.pow_succ'])) (Nat.div_lt_of_lt_mul (by rwa [← Nat.pow_succ']))]

/-- The first of the minimal digits is not 0. -/
theorem minimalDigits_head {base : Nat} {fuel v d : Nat} {ds : List Nat} (hv : v < base ^ fuel)
    (h : minimalDigits base fuel v = d :: ds) : d ≠ 0 := by
  induction fuel generalizing v d ds with
  | zero => simp [minimalDigits] at h
  | succ n ih =>
    simp only [minimalDigits] at h
    split at h
    · simp at h
    · rename_i h0
      have hq : v / base < base ^ n := Nat.div_lt_of_lt_mul (by rwa [← Nat.pow_succ'])
      cases hm : minimalDigits base n (v / base) with
      | nil =>
        have hz : v / base = 0 := by
          have := minimalDigits_value hq
          rw [hm] at this
          simpa [digitsValue] using this.symm
        simp only [hm, List.nil_append, List.cons.injEq] at h
        have := Nat.div_add_mod' v base
        rw [hz] at this
        omega
      | cons e es =>
        simp only [hm, List.cons_append, List.cons.injEq] at h
        exact h.1 ▸ ih hq hm

/-! ### The block's numerals -/

theorem hexN_eq (v n : Nat) : hexN v n = ascii '0' :: ascii 'x' :: (fixedDigits 16 n v).map (digitChar hexDigitsLower) := rfl

theorem hexN_length (v n : Nat) : (hexN v n).length = n + 2 := by
  simp [hexN_eq, fixedDigits_length]

/-- A two-digit hexadecimal numeral, digit by digit. -/
theorem hexN_two (v : Nat) (h : v < 256) :
    hexN v 2 = [ascii '0', ascii 'x', digitChar hexDigitsLower (v / 16), digitChar hexDigitsLower (v % 16)] := by
  simp [hexN_eq, fixedDigits, Nat.mod_eq_of_lt (by omega : v / 16 < 16)]

/-- The synthesized names, digit by digit (41 R215, R216). -/
theorem synthNameR_eq (f : BitVec 6) :
    synthNameR f = text "unknown_funct_" ++
      [ascii '0', ascii 'x', digitChar hexDigitsLower (f.toNat / 16), digitChar hexDigitsLower (f.toNat % 16)] := by
  rw [← hexN_two f.toNat (by have := f.isLt; omega)]
  unfold synthNameR
  trivial

theorem synthNameI_eq (o : BitVec 6) :
    synthNameI o = text "unknown_opcode_" ++
      [ascii '0', ascii 'x', digitChar hexDigitsLower (o.toNat / 16), digitChar hexDigitsLower (o.toNat % 16)] := by
  rw [← hexN_two o.toNat (by have := o.isLt; omega)]
  unfold synthNameI
  trivial

/-- The digits of a hexadecimal numeral read back as the value they were written from. -/
theorem readDigits_hex (v n : Nat) :
    readDigits 16 hexValue 0 ((fixedDigits 16 n v).map (digitChar hexDigitsLower)) = some (v % 16 ^ n) := by
  rw [readDigits_map fun d hd => hexValue_digitChar d (fixedDigits_lt (by decide) n v d hd), fixedDigits_value]
  simp

theorem readDigits_base32 {v : Nat} (hv : v < 32 ^ 26) :
    readDigits 32 base32Value 0 ((minimalDigits 32 26 v).map (digitChar base32Digits)) = some v := by
  rw [readDigits_map fun d hd => base32Value_digitChar d (minimalDigits_lt (by decide) 26 v d hd),
    minimalDigits_value hv]

/-- A base-32 numeral reads back as the number it was written from. -/
theorem readNumeral_base32Numeral {v : Nat} (hv : v < 32 ^ 26) :
    readNumeral 32 base32Value (base32Numeral v) = some v := by
  unfold base32Numeral readNumeral
  split
  · subst_vars
    decide
  · rename_i h
    rw [if_neg (by simpa using minimalDigits_ne_nil h (by decide)), readDigits_base32 hv]

theorem wordToBase32_eq (w : Word) : wordToBase32 w = base32Numeral w.toNat := by
  have := w.isLt
  simp only [wordToBase32, toBase32, BitVec.toNat_setWidth]
  rw [Nat.mod_eq_of_lt (by omega)]

/-- Every character of a base-32 numeral is in the alphabet. -/
theorem base32Numeral_all {v : Nat} (hv : v < 32 ^ 26) : ∀ c ∈ base32Numeral v, isBase32Digit c := by
  have h := readNumeral_base32Numeral hv
  simp only [readNumeral] at h
  split at h
  · simp at h
  · exact all_of_readDigits h

theorem base32Numeral_ne_nil (v : Nat) : base32Numeral v ≠ [] := by
  unfold base32Numeral
  split
  · simp
  · rename_i h
    simpa using minimalDigits_ne_nil h (by decide)

/-- A number below `32 ^ k`, `k` at least 1, has a numeral of at most `k` characters. -/
theorem base32Numeral_length_le {v k : Nat} (hk : 1 ≤ k) (hv : v < 32 ^ k) : (base32Numeral v).length ≤ k := by
  unfold base32Numeral
  split
  · simpa using hk
  · simpa using minimalDigits_length_le hv

/-! ### Errors -/

/-- The only error `parse` gives (40 R151). -/
theorem parse_error {t : Text} {e : OpError} (h : parse t = .error e) : e = .invalidNumeral t := by
  unfold parse word128Of at h
  split at h
  · split at h <;> cases h
    rfl
  · cases h
    rfl

/-- The only error `fromBase32` gives (40 R163). -/
theorem fromBase32_error {t : Text} {e : OpError} (h : fromBase32 t = .error e) : e = .invalidDigit t := by
  unfold fromBase32 at h
  split at h
  · split at h <;> cases h
    rfl
  · cases h
    rfl

/-- The only error a base-32 instruction text gives (42 R251). -/
theorem base32Word_error {t : Text} {e : OpError} (h : base32Word t = .error e) : e = .invalidDigit t := by
  unfold base32Word at h
  split at h
  · rename_i h'
    cases h
    exact fromBase32_error h'
  · split at h <;> cases h
    rfl

end Sys2Proof.Machine
end

