-- ==== Sys2Proof/Laws/State.lean ====
section
/-! SUPPORT. One lemma per field per state update, so that no proof unfolds a record update. -/

namespace Sys2Proof.Machine

@[simp] theorem State.respond_params (s : State) (r : Response) : (s.respond r).params = s.params := rfl
@[simp] theorem State.respond_store (s : State) (r : Response) : (s.respond r).store = s.store := rfl
@[simp] theorem State.respond_out (s : State) (r : Response) : (s.respond r).out = s.out := rfl
@[simp] theorem State.respond_draws (s : State) (r : Response) : (s.respond r).draws = s.draws := rfl
@[simp] theorem State.respond_inbox (s : State) (r : Response) : (s.respond r).inbox = s.inbox := rfl
@[simp] theorem State.respond_response (s : State) (r : Response) : (s.respond r).response = some r := rfl

@[simp] theorem State.raise_params (s : State) (e : OpError) : (s.raise e).params = s.params := rfl
@[simp] theorem State.raise_store (s : State) (e : OpError) : (s.raise e).store = s.store := rfl
@[simp] theorem State.raise_out (s : State) (e : OpError) : (s.raise e).out = s.out := rfl
@[simp] theorem State.raise_draws (s : State) (e : OpError) : (s.raise e).draws = s.draws := rfl
@[simp] theorem State.raise_inbox (s : State) (e : OpError) : (s.raise e).inbox = s.inbox := rfl
@[simp] theorem State.raise_response (s : State) (e : OpError) : (s.raise e).response = some (.error e) := rfl

@[simp] theorem State.writeEntry_params (s : State) (a : Addr) (t : Text) : (s.writeEntry a t).params = s.params := rfl
@[simp] theorem State.writeEntry_store (s : State) (a : Addr) (t : Text) : (s.writeEntry a t).store = s.store.write a.toNat t := rfl
@[simp] theorem State.writeEntry_out (s : State) (a : Addr) (t : Text) : (s.writeEntry a t).out = s.out := rfl
@[simp] theorem State.writeEntry_draws (s : State) (a : Addr) (t : Text) : (s.writeEntry a t).draws = s.draws := rfl
@[simp] theorem State.writeEntry_inbox (s : State) (a : Addr) (t : Text) : (s.writeEntry a t).inbox = s.inbox := rfl
@[simp] theorem State.writeEntry_response (s : State) (a : Addr) (t : Text) : (s.writeEntry a t).response = s.response := rfl

@[simp] theorem State.emit_params (s : State) (v : Word128) : (s.emit v).params = s.params := rfl
@[simp] theorem State.emit_store (s : State) (v : Word128) : (s.emit v).store = s.store := rfl
@[simp] theorem State.emit_out (s : State) (v : Word128) : (s.emit v).out = s.out ++ [v] := rfl
@[simp] theorem State.emit_draws (s : State) (v : Word128) : (s.emit v).draws = s.draws := rfl
@[simp] theorem State.emit_inbox (s : State) (v : Word128) : (s.emit v).inbox = s.inbox := rfl
@[simp] theorem State.emit_response (s : State) (v : Word128) : (s.emit v).response = s.response := rfl

@[simp] theorem State.consumeDraw_params (s : State) : (s.consumeDraw).params = s.params := rfl
@[simp] theorem State.consumeDraw_store (s : State) : (s.consumeDraw).store = s.store := rfl
@[simp] theorem State.consumeDraw_out (s : State) : (s.consumeDraw).out = s.out := rfl
@[simp] theorem State.consumeDraw_draws (s : State) : (s.consumeDraw).draws = s.draws + 1 := rfl
@[simp] theorem State.consumeDraw_inbox (s : State) : (s.consumeDraw).inbox = s.inbox := rfl
@[simp] theorem State.consumeDraw_response (s : State) : (s.consumeDraw).response = s.response := rfl

@[simp] theorem State.replaceStore_params (s : State) (es : List (Addr × Text)) : (s.replaceStore es).params = s.params := rfl
@[simp] theorem State.replaceStore_store (s : State) (es : List (Addr × Text)) : (s.replaceStore es).store = Memory.ofEntries es := rfl
@[simp] theorem State.replaceStore_out (s : State) (es : List (Addr × Text)) : (s.replaceStore es).out = s.out := rfl
@[simp] theorem State.replaceStore_draws (s : State) (es : List (Addr × Text)) : (s.replaceStore es).draws = s.draws := rfl
@[simp] theorem State.replaceStore_inbox (s : State) (es : List (Addr × Text)) : (s.replaceStore es).inbox = s.inbox := rfl
@[simp] theorem State.replaceStore_response (s : State) (es : List (Addr × Text)) : (s.replaceStore es).response = s.response := rfl

@[simp] theorem State.takeEvent_params (s : State) (rest : List HostEvent) : (s.takeEvent rest).params = s.params := rfl
@[simp] theorem State.takeEvent_store (s : State) (rest : List HostEvent) : (s.takeEvent rest).store = s.store := rfl
@[simp] theorem State.takeEvent_out (s : State) (rest : List HostEvent) : (s.takeEvent rest).out = s.out := rfl
@[simp] theorem State.takeEvent_draws (s : State) (rest : List HostEvent) : (s.takeEvent rest).draws = s.draws := rfl
@[simp] theorem State.takeEvent_inbox (s : State) (rest : List HostEvent) : (s.takeEvent rest).inbox = rest := rfl
@[simp] theorem State.takeEvent_response (s : State) (rest : List HostEvent) : (s.takeEvent rest).response = s.response := rfl

@[simp] theorem State.withFetchWord_params (s : State) (nbits w : Nat) : (s.withFetchWord nbits w).params = s.params := rfl
@[simp] theorem State.withFetchWord_store (s : State) (nbits w : Nat) : (s.withFetchWord nbits w).store = s.store := rfl
@[simp] theorem State.withFetchWord_out (s : State) (nbits w : Nat) : (s.withFetchWord nbits w).out = s.out := rfl
@[simp] theorem State.withFetchWord_draws (s : State) (nbits w : Nat) : (s.withFetchWord nbits w).draws = s.draws := rfl
@[simp] theorem State.withFetchWord_inbox (s : State) (nbits w : Nat) : (s.withFetchWord nbits w).inbox = decodeRequest nbits w :: s.inbox := rfl
@[simp] theorem State.withFetchWord_response (s : State) (nbits w : Nat) : (s.withFetchWord nbits w).response = s.response := rfl

@[simp] theorem State.construct_params (p : Params) : (State.construct p).params = p := rfl
@[simp] theorem State.construct_store (p : Params) : (State.construct p).store = [] := rfl
@[simp] theorem State.construct_out (p : Params) : (State.construct p).out = [] := rfl
@[simp] theorem State.construct_draws (p : Params) : (State.construct p).draws = 0 := rfl
@[simp] theorem State.construct_inbox (p : Params) : (State.construct p).inbox = [] := rfl
@[simp] theorem State.construct_response (p : Params) : (State.construct p).response = none := rfl

/-- Reading the store of a state goes through the store alone. -/
theorem State.readEntry_eq (s : State) (a : Addr) : s.readEntry a = s.store.read a.toNat := rfl

/-- The free value of the next draw depends on the draw counter alone. -/
theorem State.nextDraw_eq (s : State) : s.nextDraw = Config.draw s.draws := rfl

end Sys2Proof.Machine
end

