-- ==== Sys2Proof/Laws/Ops.lean ====
section
/-! SUPPORT. What each shared operation can do, said once: if it answers `next t`, then one of the listed cases
holds. -/

namespace Sys2Proof.Machine

/-- Every instruction's meaning is its report: one equation for all of `exec`. -/
theorem exec_eq (i : Instr) (s : State) : exec i s = .next (s.respond (.decoded (recordOf i))) := by
  cases i <;> rfl

theorem answer_next {r : Except OpError Response} {s t : State} (h : answer r s = .next t) :
    (∃ x, r = .ok x ∧ t = s.respond x) ∨ ∃ e, r = .error e ∧ t = s.raise e := by
  cases r with
  | ok x => exact .inl ⟨x, rfl, by simpa [answer] using h.symm⟩
  | error e => exact .inr ⟨e, rfl, by simpa [answer] using h.symm⟩

theorem answer_not_refused {r : Except OpError Response} {s : State} {x : Refusal} : answer r s ≠ .refused x := by
  cases r <;> simp [answer]

theorem answer_not_fault {r : Except OpError Response} {s : State} {x : Fault} : answer r s ≠ .fault x := by
  cases r <;> simp [answer]

/-! ### The enforcer -/

theorem boundsOK_iff (p : Params) (a : Addr) (n : Nat) :
    boundsOK p a n = true ↔ Config.mmioBase ≤ a.toNat ∨ a.toNat + n ≤ p.capacity := by
  simp [boundsOK]

theorem alignOK_iff (a : Addr) (k : Nat) : alignOK a k = true ↔ a.toNat % k = 0 := by
  simp [alignOK]

theorem enforce_none (p : Params) (a : Addr) (n k : Nat) :
    enforce p a n k = none ↔ boundsOK p a n = true ∧ alignOK a k = true := by
  unfold enforce
  cases boundsOK p a n <;> cases alignOK a k <;> simp

/-- The enforcer's errors, in the order of its checks. -/
theorem enforce_some {p : Params} {a : Addr} {n k : Nat} {e : OpError} (h : enforce p a n k = some e) :
    (boundsOK p a n = false ∧ e = .outOfBounds a n) ∨
      (boundsOK p a n = true ∧ alignOK a k = false ∧ e = .misaligned a k) := by
  unfold enforce at h
  cases hb : boundsOK p a n <;> cases ha : alignOK a k <;> simp_all

/-- What the construction parameters satisfy (00 R8). -/
theorem Params.constraints (p : Params) :
    p.capacity ≤ Config.mmioBase ∧ Config.mmioBase ≤ p.outputPort.toNat ∧
      Config.mmioBase ≤ p.inputPort.toNat ∧ p.outputPort ≠ p.inputPort := by
  have h := p.valid
  simp only [paramsValid, Bool.and_eq_true, decide_eq_true_eq, Bool.not_eq_true', decide_eq_false_iff_not] at h
  exact ⟨h.1.1.1, h.1.1.2, h.1.2, h.2⟩

/-! ### The encoders' operand checks -/

theorem firstNegative_none {l : List (FieldName × Int)} (h : firstNegative l = none) : ∀ p ∈ l, 0 ≤ p.2 := by
  induction l with
  | nil => simp
  | cons p l ih =>
    obtain ⟨f, x⟩ := p
    simp only [firstNegative] at h
    split at h
    · cases h
    · rename_i hx
      intro q hq
      rcases List.mem_cons.1 hq with rfl | hq
      · simpa using hx
      · exact ih h q hq

theorem firstNegative_some {l : List (FieldName × Int)} {f : FieldName} (h : firstNegative l = some f) :
    ∃ x < 0, (f, x) ∈ l := by
  induction l with
  | nil => cases h
  | cons p l ih =>
    obtain ⟨g, y⟩ := p
    simp only [firstNegative] at h
    split at h
    · rename_i hy
      cases h
      exact ⟨y, hy, List.mem_cons_self⟩
    · obtain ⟨x, hx, hm⟩ := ih h
      exact ⟨x, hx, List.mem_cons_of_mem _ hm⟩

theorem firstOutOfRange_some {l : List (FieldName × Nat)} {f : FieldName} {x : Nat}
    (h : firstOutOfRange l = some (f, x)) : (f, x) ∈ l ∧ 2 ^ fieldWidth f ≤ x := by
  induction l with
  | nil => cases h
  | cons p l ih =>
    obtain ⟨g, y⟩ := p
    simp only [firstOutOfRange] at h
    split at h
    · rename_i hy
      cases h
      exact ⟨List.mem_cons_self, hy⟩
    · exact ⟨List.mem_cons_of_mem _ (ih h).1, (ih h).2⟩

/-! ### The address-space operations -/

/-- Away from both ports the instruction path treats an address as ordinary (43 R282). -/
theorem portRoute_ordinary {p : Params} {a : Addr} (ho : a ≠ p.outputPort) (hi : a ≠ p.inputPort) :
    portRoute p a = .ordinary := by
  simp [portRoute, isOutputPort, isInputPort, ho, hi]

/-- At a port the route is the mode's (43 R282). -/
theorem portRoute_port {p : Params} {a : Addr} (h : a = p.outputPort ∨ a = p.inputPort) :
    portRoute p a = match p.instrPortMode with
      | .ordinary => .ordinary
      | .refuse => .refused
      | .special => .mirrored := by
  have hn : ¬ (isOutputPort p a = false ∧ isInputPort p a = false) := by
    rcases h with h | h <;> simp [isOutputPort, isInputPort, h]
  exact (if_neg hn).trans (by cases p.instrPortMode <;> rfl)

theorem loadEntry_next {a : Addr} {entry : Option Text} {s t : State} (h : loadEntry a entry s = .next t) :
    ∃ x, t = s.respond x := by
  unfold loadEntry at h
  split at h
  · exact ⟨_, by simpa using h.symm⟩
  · split at h
    · cases h
    · rcases answer_next h with ⟨x, -, rfl⟩ | ⟨e, -, rfl⟩ <;> exact ⟨_, rfl⟩

/-- A word load draws from the input port, or only responds. -/
theorem loadWord_next {a : Addr} {s t : State} (h : loadWord a s = .next t) :
    (a = s.params.inputPort ∧ t = s.consumeDraw.respond (.word s.nextDraw)) ∨ ∃ x, t = s.respond x := by
  unfold loadWord at h
  split at h
  · rename_i hp
    exact .inl ⟨by simpa [isInputPort] using hp, by simpa using h.symm⟩
  · split at h
    · exact .inr ⟨_, by cases h; rfl⟩
    · exact .inr (loadEntry_next h)

/-- A word store emits at the output port, or writes its one entry, or raises the enforcer's error. -/
theorem storeWord_next {a : Addr} {v : Word128} {s t : State} (h : storeWord a v s = .next t) :
    (a = s.params.outputPort ∧ t = (s.emit v).respond .done) ∨
      (a ≠ s.params.outputPort ∧ enforceWord s.params a = none ∧ t = (s.writeEntry a (toHex v)).respond .done) ∨
      ∃ e, a ≠ s.params.outputPort ∧ enforceWord s.params a = some e ∧ t = s.raise e := by
  unfold storeWord at h
  split at h
  · rename_i hp
    exact .inl ⟨by simpa [isOutputPort] using hp, by simpa using h.symm⟩
  · rename_i hp
    split at h
    · rename_i e he
      exact .inr (.inr ⟨e, by simpa [isOutputPort] using hp, he, by simpa using h.symm⟩)
    · rename_i he
      exact .inr (.inl ⟨by simpa [isOutputPort] using hp, he, by simpa using h.symm⟩)

theorem fetchChecked_next {a : Addr} {s t : State} (h : fetchChecked a s = .next t) : ∃ x, t = s.respond x := by
  unfold fetchChecked at h
  split at h
  · exact ⟨_, by cases h; rfl⟩
  · split at h
    · exact ⟨_, by simpa using h.symm⟩
    · rcases answer_next h with ⟨x, -, rfl⟩ | ⟨e, -, rfl⟩ <;> exact ⟨_, rfl⟩

/-- A fetch draws from the input port in mode `special`, or only responds. -/
theorem fetchInstruction_next {a : Addr} {s t : State} (h : fetchInstruction a s = .next t) :
    (a = s.params.inputPort ∧ s.params.instrPortMode = .special ∧
        t = s.consumeDraw.respond (.instruction (s.nextDraw.setWidth 32))) ∨ ∃ x, t = s.respond x := by
  unfold fetchInstruction at h
  split at h
  · cases h
  · exact .inr (fetchChecked_next h)
  · rename_i hr
    split at h
    · rename_i hp
      refine .inl ⟨by simpa [isInputPort] using hp, ?_, by simpa using h.symm⟩
      unfold portRoute at hr
      split at hr
      · cases hr
      · cases hm : s.params.instrPortMode <;> simp_all
    · exact .inr (fetchChecked_next h)

/-- Where a fetch uses the store it is the checked fetch (43 R282). -/
theorem fetchInstruction_usesStore {s : State} {a : Addr} (h : fetchUsesStore s a) :
    fetchInstruction a s = fetchChecked a s := by
  rcases h with ⟨ho, hi⟩ | hm | ⟨hm, hi⟩
  · simp [fetchInstruction, portRoute_ordinary ho hi]
  · simp [fetchInstruction, portRoute, hm]
  · by_cases ho : a = s.params.outputPort
    · simp [fetchInstruction, portRoute_port (.inl ho), hm, isInputPort, hi]
    · simp [fetchInstruction, portRoute_ordinary ho hi]

theorem storeChecked_next {a : Addr} {w : Word} {s t : State} (h : storeChecked a w s = .next t) :
    (enforceInstr s.params a = none ∧ t = (s.writeEntry a (wordToBase32 w)).respond .done) ∨
      ∃ e, enforceInstr s.params a = some e ∧ t = s.raise e := by
  unfold storeChecked at h
  split at h
  · rename_i e he
    exact .inr ⟨e, he, by simpa using h.symm⟩
  · rename_i he
    exact .inl ⟨he, by simpa using h.symm⟩

/-- An instruction store emits at the output port in mode `special`, or writes its one entry, or raises the
enforcer's error. -/
theorem storeInstruction_next {a : Addr} {w : Word} {s t : State} (h : storeInstruction a w s = .next t) :
    (a = s.params.outputPort ∧ s.params.instrPortMode = .special ∧
        t = (s.emit (w.setWidth 128)).respond .done) ∨
      (enforceInstr s.params a = none ∧ t = (s.writeEntry a (wordToBase32 w)).respond .done) ∨
      ∃ e, enforceInstr s.params a = some e ∧ t = s.raise e := by
  unfold storeInstruction at h
  split at h
  · cases h
  · exact .inr (storeChecked_next h)
  · rename_i hr
    split at h
    · rename_i hp
      refine .inl ⟨by simpa [isOutputPort] using hp, ?_, by simpa using h.symm⟩
      unfold portRoute at hr
      split at hr
      · cases hr
      · cases hm : s.params.instrPortMode <;> simp_all
    · exact .inr (storeChecked_next h)

/-- Where an instruction store uses the store it is the checked store (43 R282). -/
theorem storeInstruction_usesStore {s : State} {a : Addr} {w : Word} (h : storeUsesStore s a) :
    storeInstruction a w s = storeChecked a w s := by
  rcases h with ⟨ho, hi⟩ | hm | ⟨hm, ho⟩
  · simp [storeInstruction, portRoute_ordinary ho hi]
  · simp [storeInstruction, portRoute, hm]
  · by_cases hi : a = s.params.inputPort
    · simp [storeInstruction, portRoute_port (.inr hi), hm, isOutputPort, ho]
    · simp [storeInstruction, portRoute_ordinary ho hi]

/-- Which `k` a query visits (43 R291). -/
theorem lt_strideCount (start : Addr) (length k : Nat) :
    k < strideCount start length ↔ 16 * k < length ∧ start.toNat + 16 * k < Config.addrSpace := by
  have := start.isLt
  simp only [strideCount, Config.addrSpace, lt_min_iff]
  omega

/-! ### Requests and steps -/

/-- All that a request can do: respond; or consume a draw and respond (at the input port); or emit and respond (at the
output port); or write the one entry at its address and respond. -/
inductive Effect (s : State) : Request → State → Prop where
  | responds (r : Request) (x : Response) : Effect s r (s.respond x)
  | drawsWord : Effect s (.loadWord s.params.inputPort) (s.consumeDraw.respond (.word s.nextDraw))
  | drawsInstruction (h : s.params.instrPortMode = .special) :
    Effect s (.fetchInstruction s.params.inputPort)
      (s.consumeDraw.respond (.instruction (s.nextDraw.setWidth 32)))
  | emitsWord (v : Word128) : Effect s (.storeWord s.params.outputPort v) ((s.emit v).respond .done)
  | emitsInstruction (w : Word) (h : s.params.instrPortMode = .special) :
    Effect s (.storeInstruction s.params.outputPort w) ((s.emit (w.setWidth 128)).respond .done)
  | writesWord (a : Addr) (v : Word128) (h : a ≠ s.params.outputPort) (he : enforceWord s.params a = none) :
    Effect s (.storeWord a v) ((s.writeEntry a (toHex v)).respond .done)
  | writesInstruction (a : Addr) (w : Word) (he : enforceInstr s.params a = none) :
    Effect s (.storeInstruction a w) ((s.writeEntry a (wordToBase32 w)).respond .done)

theorem answer_effect {x : Except OpError Response} {r : Request} {s t : State} (h : answer x s = .next t) :
    Effect s r t := by
  rcases answer_next h with ⟨y, -, rfl⟩ | ⟨e, -, rfl⟩
  · exact .responds r y
  · exact .responds r (.error e)

/-- Every request that answers `next t` has one of the listed effects. -/
theorem perform_next {r : Request} {s t : State} (h : perform r s = .next t) : Effect s r t := by
  cases r with
  | decode w =>
    have h' : exec (decodeWord w) s = .next t := h
    rw [exec_eq] at h'
    cases h'
    exact .responds _ _
  | encodeRegisterFormat opcode rs rt rd shamt funct =>
    simp only [perform, performEncodeRegister] at h
    split at h
    · cases h
    · cases h; exact .responds _ _
  | encodeImmediateFormat opcode rs rt immediate =>
    simp only [perform, performEncodeImmediate] at h
    split at h
    · cases h
    · cases h; exact .responds _ _
  | encodeRegisterFormatStrict opcode rs rt rd shamt funct =>
    simp only [perform, performEncodeRegisterStrict] at h
    split at h
    · cases h
    · exact answer_effect h
  | encodeImmediateFormatStrict opcode rs rt immediate =>
    simp only [perform, performEncodeImmediateStrict] at h
    split at h
    · cases h
    · exact answer_effect h
  | loadWord a =>
    rcases loadWord_next h with ⟨rfl, rfl⟩ | ⟨x, rfl⟩
    · exact .drawsWord
    · exact .responds _ x
  | storeWord a v =>
    rcases storeWord_next h with ⟨rfl, rfl⟩ | ⟨ha, he, rfl⟩ | ⟨e, -, -, rfl⟩
    · exact .emitsWord v
    · exact .writesWord a v ha he
    · exact .responds _ _
  | fetchInstruction a =>
    rcases fetchInstruction_next h with ⟨rfl, hm, rfl⟩ | ⟨x, rfl⟩
    · exact .drawsInstruction hm
    · exact .responds _ x
  | storeInstruction a w =>
    rcases storeInstruction_next h with ⟨rfl, hm, rfl⟩ | ⟨he, rfl⟩ | ⟨e, -, rfl⟩
    · exact .emitsInstruction w hm
    · exact .writesInstruction a w he
    · exact .responds _ _
  | queryRange start length fmt => cases h; exact .responds _ _
  | info => cases h; exact .responds _ _
  | parse t => exact answer_effect h
  | toHex v => cases h; exact .responds _ _
  | toDecimal v => cases h; exact .responds _ _
  | toBinary v => cases h; exact .responds _ _
  | toBase32 v => cases h; exact .responds _ _
  | fromBase32 t => exact answer_effect h
  | render v fmt => cases h; exact .responds _ _
  | encodeInstructionText w => cases h; exact .responds _ _
  | decodeInstructionText t => exact answer_effect h
  | looksLikeInstruction t => cases h; exact .responds _ _

/-- All that a step can do: wait, perform the oldest request, or replace the store. -/
theorem step_next {s t : State} (h : step s = .next t) :
    (s.inbox = [] ∧ t = s) ∨
      (∃ r rest, s.inbox = .request r :: rest ∧ Effect (s.takeEvent rest) r t) ∨
      ∃ es rest, s.inbox = .replaceStore es :: rest ∧ t = (s.takeEvent rest).replaceStore es := by
  unfold step stepOnce at h
  split at h
  · rename_i hi
    exact .inl ⟨hi, by simpa using h.symm⟩
  · rename_i e rest hi
    cases e with
    | request r => exact .inr (.inl ⟨r, rest, hi, perform_next h⟩)
    | overlapping r1 r2 => cases h
    | replaceStore es => exact .inr (.inr ⟨es, rest, hi, by simpa [handleEvent] using h.symm⟩)

end Sys2Proof.Machine
end

