-- ==== Sys2Proof/Laws/PerInstr.lean ====
section
/-! SUPPORT. Statements per instruction: the word an instruction is encoded as has the instruction's format by its
opcode (30 R111), and the instruction's record names that format and that word (30 R130). -/

namespace Sys2Proof.Laws

open Sys2Proof.Machine

/-- 30 R111, R130: the opcode of a well-formed instruction's word selects the format its record names, and the record's
raw word is the instruction's encoding. -/
def FormatField.Statement (i : Instr) : Prop :=
  i.wellFormed = true → formatOf (encode i) = recordFormat (recordOf i) ∧ recordRaw (recordOf i) = encode i

theorem formatOf_packRegister (rs rt rd shamt : RegIndex) (funct : BitVec 6) :
    formatOf (packRegister 0x00#6 rs rt rd shamt funct) = .register := by
  simp [formatOf]

theorem FormatField.add (rs rt rd shamt : RegIndex) :
    FormatField.Statement (.add rs rt rd shamt) := fun _ => ⟨formatOf_packRegister _ _ _ _ _, rfl⟩

theorem FormatField.sub (rs rt rd shamt : RegIndex) :
    FormatField.Statement (.sub rs rt rd shamt) := fun _ => ⟨formatOf_packRegister _ _ _ _ _, rfl⟩

theorem FormatField.mult (rs rt rd shamt : RegIndex) :
    FormatField.Statement (.mult rs rt rd shamt) := fun _ => ⟨formatOf_packRegister _ _ _ _ _, rfl⟩

theorem FormatField.multu (rs rt rd shamt : RegIndex) :
    FormatField.Statement (.multu rs rt rd shamt) := fun _ => ⟨formatOf_packRegister _ _ _ _ _, rfl⟩

theorem FormatField.div (rs rt rd shamt : RegIndex) :
    FormatField.Statement (.div rs rt rd shamt) := fun _ => ⟨formatOf_packRegister _ _ _ _ _, rfl⟩

theorem FormatField.divu (rs rt rd shamt : RegIndex) :
    FormatField.Statement (.divu rs rt rd shamt) := fun _ => ⟨formatOf_packRegister _ _ _ _ _, rfl⟩

theorem FormatField.mfhi (rs rt rd shamt : RegIndex) :
    FormatField.Statement (.mfhi rs rt rd shamt) := fun _ => ⟨formatOf_packRegister _ _ _ _ _, rfl⟩

theorem FormatField.mflo (rs rt rd shamt : RegIndex) :
    FormatField.Statement (.mflo rs rt rd shamt) := fun _ => ⟨formatOf_packRegister _ _ _ _ _, rfl⟩

theorem FormatField.lis (rs rt rd shamt : RegIndex) :
    FormatField.Statement (.lis rs rt rd shamt) := fun _ => ⟨formatOf_packRegister _ _ _ _ _, rfl⟩

theorem FormatField.jr (rs rt rd shamt : RegIndex) :
    FormatField.Statement (.jr rs rt rd shamt) := fun _ => ⟨formatOf_packRegister _ _ _ _ _, rfl⟩

theorem FormatField.jalr (rs rt rd shamt : RegIndex) :
    FormatField.Statement (.jalr rs rt rd shamt) := fun _ => ⟨formatOf_packRegister _ _ _ _ _, rfl⟩

theorem FormatField.slt (rs rt rd shamt : RegIndex) :
    FormatField.Statement (.slt rs rt rd shamt) := fun _ => ⟨formatOf_packRegister _ _ _ _ _, rfl⟩

theorem FormatField.sltu (rs rt rd shamt : RegIndex) :
    FormatField.Statement (.sltu rs rt rd shamt) := fun _ => ⟨formatOf_packRegister _ _ _ _ _, rfl⟩

theorem FormatField.lw (rs rt : RegIndex) (imm : BitVec 16) :
    FormatField.Statement (.lw rs rt imm) :=
  fun _ => ⟨by simp [encode, formatOf, recordOf, immediateRecord, recordFormat], rfl⟩

theorem FormatField.sw (rs rt : RegIndex) (imm : BitVec 16) :
    FormatField.Statement (.sw rs rt imm) :=
  fun _ => ⟨by simp [encode, formatOf, recordOf, immediateRecord, recordFormat], rfl⟩

theorem FormatField.beq (rs rt : RegIndex) (imm : BitVec 16) :
    FormatField.Statement (.beq rs rt imm) :=
  fun _ => ⟨by simp [encode, formatOf, recordOf, immediateRecord, recordFormat], rfl⟩

theorem FormatField.bne (rs rt : RegIndex) (imm : BitVec 16) :
    FormatField.Statement (.bne rs rt imm) :=
  fun _ => ⟨by simp [encode, formatOf, recordOf, immediateRecord, recordFormat], rfl⟩

theorem FormatField.j (addr : BitVec 26) :
    FormatField.Statement (.j addr) :=
  fun _ => ⟨by simp [encode, formatOf, recordOf, jumpRecord, recordFormat], rfl⟩

theorem FormatField.jal (addr : BitVec 26) :
    FormatField.Statement (.jal addr) :=
  fun _ => ⟨by simp [encode, formatOf, recordOf, jumpRecord, recordFormat], rfl⟩

theorem FormatField.unknownR (rs rt rd shamt : RegIndex) (funct : BitVec 6) :
    FormatField.Statement (.unknownR rs rt rd shamt funct) := fun _ => ⟨formatOf_packRegister _ _ _ _ _, rfl⟩

theorem FormatField.unknownI (opcode : BitVec 6) (rs rt : RegIndex) (imm : BitVec 16) :
    FormatField.Statement (.unknownI opcode rs rt imm) := by
  intro h
  have hf : opcode ∉ namedOpcodes := by simpa [Instr.wellFormed] using h
  refine ⟨?_, rfl⟩
  simp only [encode, formatOf, opcodeField_packImmediate]
  split
  · simp [namedOpcodes] at hf
  · simp [namedOpcodes] at hf
  · simp [namedOpcodes] at hf
  · rfl

end Sys2Proof.Laws
end

