-- ==== Sys2Proof/Tests/Slice0.lean ====
section
/-! SUPPORT. The model's own tests and the witnesses of its statements' hypotheses. The expected results are those of
spec/95_test_vectors.md, whose vector each comment names, or are worked out by hand from the rule it names. -/

namespace Sys2Proof.Tests

open Sys2Proof.Machine

/-! ### Helpers -/

/-- The vectors' parameters, with the suggested ports of [P]. -/
def params (mode : InstrPortMode) (capacity : Nat := 0x00800000) (h : capacity ≤ 0xFFFF0000 := by decide) :
    Params where
  capacity := capacity
  outputPort := 0xFFFF000C
  inputPort := 0xFFFF0004
  instrPortMode := mode
  storageKind := text "kind"
  valid := by simp [paramsValid, Config.mmioBase, h]

/-- A block with this store. -/
def block (store : Memory) (mode : InstrPortMode := .refuse) : State :=
  { State.construct (params mode) with store := store }

/-- A block with this store and one event waiting. -/
def waiting (e : HostEvent) (store : Memory := []) (mode : InstrPortMode := .refuse) : State :=
  { block store mode with inbox := [e] }

/-- The response of a step that completes. -/
def response : StepOutcome → Option Response
  | .next t => t.response
  | .fault _ => none
  | .refused _ => none

/-- The state a step that completes gives. -/
def after : StepOutcome → Option State
  | .next t => some t
  | .fault _ => none
  | .refused _ => none

/-- What a step was refused for. -/
def refusal : StepOutcome → Option Refusal
  | .next _ => none
  | .fault _ => none
  | .refused x => some x

/-- A block with both ports on 16-byte boundaries, which 00 R8 allows. -/
def alignedPorts (store : Memory := []) (mode : InstrPortMode := .refuse) : State :=
  { State.construct
      { capacity := 0x1000, outputPort := 0xFFFF0020, inputPort := 0xFFFF0010, instrPortMode := mode
        storageKind := [], valid := by simp [paramsValid, Config.mmioBase] } with
    store := store }

/-- The canonical text of 0xff, a word entry. -/
def textFF : Text := text "0x000000000000000000000000000000ff"

/-! ### Texts -/

/-- 00 R12: the ends of the alphabets `DEC`, `B32` and `HEXL` by their ASCII codes. -/
theorem test_text : text "09AVaf" = [48, 57, 65, 86, 97, 102] := by decide

/-! ### Well-formedness (41 R213, R214): one ill-formed term for each check -/

theorem test_wellFormed_refuses_named_funct : (Instr.unknownR 1 2 3 0 0x20).wellFormed = false := by decide

theorem test_wellFormed_refuses_named_opcode : (Instr.unknownI 0x23 1 2 0).wellFormed = false := by decide

theorem test_wellFormed_refuses_other_formats :
    (Instr.unknownI 0x00 1 2 0).wellFormed = false ∧ (Instr.unknownI 0x02 1 2 0).wellFormed = false ∧
      (Instr.unknownI 0x03 1 2 0).wellFormed = false := by decide

/-! ### Decoding -/

/-- DEC1; and the fields 1, 2, 4, 8 side by side (30 R112). -/
theorem test_decode_add : decodeWord 0x00221820 = .add 1 2 3 0 ∧
    decodeWord 0b000000_00001_00010_00100_01000_100000 = .add 1 2 4 8 := by decide

/-- DEC3; and the fields 1, 2, 4, 8 side by side (30 R112). -/
theorem test_decode_sub : decodeWord 0x00221822 = .sub 1 2 3 0 ∧
    decodeWord 0b000000_00001_00010_00100_01000_100010 = .sub 1 2 4 8 := by decide

/-- DEC4; and the fields 1, 2, 4, 8 side by side (30 R112). -/
theorem test_decode_mult : decodeWord 0x00220018 = .mult 1 2 0 0 ∧
    decodeWord 0b000000_00001_00010_00100_01000_011000 = .mult 1 2 4 8 := by decide

/-- DEC5; and the fields 1, 2, 4, 8 side by side (30 R112). -/
theorem test_decode_multu : decodeWord 0x00220019 = .multu 1 2 0 0 ∧
    decodeWord 0b000000_00001_00010_00100_01000_011001 = .multu 1 2 4 8 := by decide

/-- DEC6; and the fields 1, 2, 4, 8 side by side (30 R112). -/
theorem test_decode_div : decodeWord 0x0022001A = .div 1 2 0 0 ∧
    decodeWord 0b000000_00001_00010_00100_01000_011010 = .div 1 2 4 8 := by decide

/-- DEC7; and the fields 1, 2, 4, 8 side by side (30 R112). -/
theorem test_decode_divu : decodeWord 0x0022001B = .divu 1 2 0 0 ∧
    decodeWord 0b000000_00001_00010_00100_01000_011011 = .divu 1 2 4 8 := by decide

/-- DEC8; and the fields 1, 2, 4, 8 side by side (30 R112). -/
theorem test_decode_mfhi : decodeWord 0x00001810 = .mfhi 0 0 3 0 ∧
    decodeWord 0b000000_00001_00010_00100_01000_010000 = .mfhi 1 2 4 8 := by decide

/-- DEC9; and the fields 1, 2, 4, 8 side by side (30 R112). -/
theorem test_decode_mflo : decodeWord 0x00001812 = .mflo 0 0 3 0 ∧
    decodeWord 0b000000_00001_00010_00100_01000_010010 = .mflo 1 2 4 8 := by decide

/-- DEC10; and the fields 1, 2, 4, 8 side by side (30 R112). -/
theorem test_decode_lis : decodeWord 0x00001814 = .lis 0 0 3 0 ∧
    decodeWord 0b000000_00001_00010_00100_01000_010100 = .lis 1 2 4 8 := by decide

/-- DEC11; and the fields 1, 2, 4, 8 side by side (30 R112). -/
theorem test_decode_jr : decodeWord 0x03E00008 = .jr 31 0 0 0 ∧
    decodeWord 0b000000_00001_00010_00100_01000_001000 = .jr 1 2 4 8 := by decide

/-- DEC12; and the fields 1, 2, 4, 8 side by side (30 R112). -/
theorem test_decode_jalr : decodeWord 0x03E00009 = .jalr 31 0 0 0 ∧
    decodeWord 0b000000_00001_00010_00100_01000_001001 = .jalr 1 2 4 8 := by decide

/-- DEC13; and the fields 1, 2, 4, 8 side by side (30 R112). -/
theorem test_decode_slt : decodeWord 0x0022182A = .slt 1 2 3 0 ∧
    decodeWord 0b000000_00001_00010_00100_01000_101010 = .slt 1 2 4 8 := by decide

/-- DEC14; and the fields 1, 2, 4, 8 side by side (30 R112). -/
theorem test_decode_sltu : decodeWord 0x0022182B = .sltu 1 2 3 0 ∧
    decodeWord 0b000000_00001_00010_00100_01000_101011 = .sltu 1 2 4 8 := by decide

/-- DEC15; and the fields 1, 2, 0x8001 side by side (30 R113). -/
theorem test_decode_lw : decodeWord 0x8C220004 = .lw 1 2 4 ∧
    decodeWord 0b100011_00001_00010_1000000000000001 = .lw 1 2 0x8001 := by decide

/-- DEC16; and the fields 1, 2, 0x8001 side by side (30 R113). -/
theorem test_decode_sw : decodeWord 0xAC220004 = .sw 1 2 4 ∧
    decodeWord 0b101011_00001_00010_1000000000000001 = .sw 1 2 0x8001 := by decide

/-- DEC17; and the fields 1, 2, 0x8001 side by side (30 R113). -/
theorem test_decode_beq : decodeWord 0x1022FFFF = .beq 1 2 65535 ∧
    decodeWord 0b000100_00001_00010_1000000000000001 = .beq 1 2 0x8001 := by decide

/-- DEC18; and the fields 1, 2, 0x8001 side by side (30 R113). -/
theorem test_decode_bne : decodeWord 0x14A00003 = .bne 5 0 3 ∧
    decodeWord 0b000101_00001_00010_1000000000000001 = .bne 1 2 0x8001 := by decide

/-- DEC20; and an address field with its ends set (30 R114). -/
theorem test_decode_j : decodeWord 0x0BFFFFFF = .j 67108863 ∧
    decodeWord 0b000010_10000000000000000000000001 = .j 0x2000001 := by decide

/-- DEC21; and an address field with its ends set (30 R114). -/
theorem test_decode_jal : decodeWord 0x0C000001 = .jal 1 ∧
    decodeWord 0b000011_10000000000000000000000001 = .jal 0x2000001 := by decide

/-- DEC24, DEC25, DEC35: unrecognized register-format words. -/
theorem test_decode_unknownR : decodeWord 0x0000003F = .unknownR 0 0 0 0 0x3F ∧
    decodeWord 0x000007C0 = .unknownR 0 0 0 31 0x00 ∧ decodeWord 0x00000FFF = .unknownR 0 0 1 31 0x3F := by decide

/-- DEC26, DEC27, DEC33: unrecognized immediate-format words. -/
theorem test_decode_unknownI : decodeWord 0x04000000 = .unknownI 0x01 0 0 0 ∧
    decodeWord 0xFFFFFFFF = .unknownI 0x3F 31 31 0xFFFF ∧ decodeWord 0xF8000000 = .unknownI 0x3E 0 0 0 := by decide

/-- DEC1, DEC11, DEC15, DEC22, DEC35, DEC27: the encoder gives the vectors' words. -/
theorem test_encode : encode (.add 1 2 3 0) = 0x00221820 ∧ encode (.jr 31 0 0 0) = 0x03E00008 ∧
    encode (.lw 1 2 4) = 0x8C220004 ∧ encode (.jal 0x0100000) = 0x0C100000 ∧
    encode (.unknownR 0 0 1 31 0x3F) = 0x00000FFF ∧ encode (.unknownI 0x3F 31 31 0xFFFF) = 0xFFFFFFFF := by decide

/-- 30 R110: bits that are no 32-bit word are rejected by name; nothing else is. -/
theorem test_decodeBits_rejects :
    decodeBits 33 0 = .error (.notOneWord 33) ∧ decodeBits 8 256 = .error (.valueTooWide 256) ∧
      decodeTableWord 32 0x00221820 = some (.add 1 2 3 0) ∧ decodeTableWord 64 0 = none := by decide

/-- DEC24, DEC26: the synthesized names. -/
theorem test_synthesized_names : synthNameR 0x3F = text "unknown_funct_0x3f" ∧
    synthNameI 0x01 = text "unknown_opcode_0x01" := by decide

/-- DEC17: the immediate is reported raw, by the very next step. -/
theorem test_step_runs_presented_word :
    response (step ((block []).withFetchWord 32 0x1022FFFF)) =
      some (.decoded (.immediate (text "beq") 0x1022FFFF 0x04 1 2 0xFFFF)) := by decide

/-- DEC23: the all-zero word decodes with a synthesized name, from reset too. -/
theorem test_reset_runs_presented_word :
    response (step (State.reset.withFetchWord 32 0)) =
      some (.decoded (.register (text "unknown_funct_0x00") 0 0 0 0 0 0 0)) := by decide

/-! ### Encoders -/

/-- ENC2, ENC3, ENC4. -/
theorem test_encodeRegisterFormat : encodeRegisterFormat 0 31 31 31 31 63 = 0x03FFFFFF ∧
    encodeRegisterFormat 0x40 32 33 34 35 0x60 = 0x000110E0 ∧
    decodeWord (encodeRegisterFormat 2 0 0 0 0 0) = .j 0 := by decide

/-- ENC7, ENC8, ENC10. -/
theorem test_encodeImmediateFormat : encodeImmediateFormat 0x23 1 2 4 = 0x8C220004 ∧
    encodeImmediateFormat 0x23 1 2 0x10004 = 0x8C220004 ∧
    encodeImmediateFormat 0x43 0x21 0x22 0x1FFFF = 0x0C22FFFF := by decide

/-- STR3, STR4, STR5, ERR7: the first field out of range, in operand order. -/
theorem test_strict_encoders :
    encodeRegisterFormatStrict 0 32 0 0 0 0x20 = .error (.fieldOutOfRange .rs 32) ∧
    encodeRegisterFormatStrict 64 32 0 0 0 0 = .error (.fieldOutOfRange .opcode 64) ∧
    encodeRegisterFormatStrict 0 0 0 0 32 64 = .error (.fieldOutOfRange .shamt 32) ∧
    encodeImmediateFormatStrict 0x40 32 0 0x10000 = .error (.fieldOutOfRange .opcode 64) := by decide

/-- TXT9 to TXT12. -/
theorem test_decodeInstructionText :
    decodeInstructionText (text "4000000") = .error (.invalidDigit (text "4000000")) ∧
    decodeInstructionText (text "VVVVVVVV") = .error (.invalidDigit (text "VVVVVVVV")) ∧
    decodeInstructionText [] = .error (.invalidDigit []) ∧
    decodeInstructionText (text "1a") = .error (.invalidDigit (text "1a")) := by decide

/-- LLI2 to LLI5, LLI7, LLI8, LLI11. -/
theorem test_looksLikeInstruction :
    looksLikeInstruction (text "0") = true ∧ looksLikeInstruction [] = false ∧
    looksLikeInstruction (text "VVVVVVVV") = true ∧ looksLikeInstruction (text "123456789") = false ∧
    looksLikeInstruction (text "1a") = false ∧ looksLikeInstruction (text "W") = false ∧
    looksLikeInstruction (text " 1") = false := by decide

/-! ### Radix converter -/

/-- PAR2 to PAR8. -/
theorem test_parse_accepts : parse (text "10") = .ok 10 ∧ parse (text "019") = .ok 19 ∧
    parse (text "0x10") = .ok 16 ∧ parse (text "0xFf") = .ok 255 ∧ parse (text "ff") = .ok 255 ∧
    parse (text "1f") = .ok 31 ∧ parse (text "0x" ++ List.replicate 40 (ascii '0')) = .ok 0 := by decide

/-- PAR10 to PAR13: the bound. -/
theorem test_parse_bound :
    parse (text "340282366920938463463374607431768211455") = .ok 0xffffffffffffffffffffffffffffffff ∧
    parse (text "340282366920938463463374607431768211456") =
      .error (.invalidNumeral (text "340282366920938463463374607431768211456")) ∧
    parse (text "0x100000000000000000000000000000000") =
      .error (.invalidNumeral (text "0x100000000000000000000000000000000")) ∧
    parse (text "0x" ++ List.replicate 32 (ascii 'f')) = .ok 0xffffffffffffffffffffffffffffffff := by decide

/-- PAR14 to PAR21. -/
theorem test_parse_refuses : ∀ t ∈ [[], text "0x", text "0X10", text "-1", text " 1", text "1_0",
    text "g", text "60K"], parse t = .error (.invalidNumeral t) := by decide

/-- FMT2, FMT3, FMT5, FMT7. -/
theorem test_toHex_toDecimal : toHex 255 = textFF ∧
    toHex 0x100000000 = text "0x00000000000000000000000100000000" ∧ toDecimal 0 = text "0" ∧
    toDecimal 0xffffffffffffffffffffffffffffffff = text "340282366920938463463374607431768211455" := by decide

/-- FMT9's last 8 characters, by the operation that gives all 128. -/
theorem test_toBinary : (fixedDigits 2 8 5).map (digitChar decimalDigits) = text "00000101" := by decide

/-- FMT12, FMT13, FMT16, FMT18, FMT19, FMT20. -/
theorem test_toBase32 : toBase32 0 = text "0" ∧ toBase32 31 = text "V" ∧ toBase32 1024 = text "100" ∧
    toBase32 0xFFFFFFFF = text "3VVVVVV" ∧ toBase32 0x100000000 = text "4000000" ∧
    toBase32 0xffffffffffffffffffffffffffffffff = ascii '7' :: List.replicate 25 (ascii 'V') := by decide

/-- B32N6, B32N7, B32N11, B32N12, B32N14, B32N15. -/
theorem test_fromBase32 : fromBase32 (text "007") = .ok 7 ∧ fromBase32 (text "60K") = .ok 6164 ∧
    fromBase32 (ascii '7' :: List.replicate 25 (ascii 'V')) = .ok 0xffffffffffffffffffffffffffffffff ∧
    fromBase32 (ascii '8' :: List.replicate 25 (ascii '0')) =
      .error (.invalidDigit (ascii '8' :: List.replicate 25 (ascii '0'))) ∧
    fromBase32 (text "v") = .error (.invalidDigit (text "v")) ∧
    fromBase32 (text "W") = .error (.invalidDigit (text "W")) := by decide

/-! ### Enforcer -/

/-- ENF9 to ENF11, ENF16, ENF18, ENF19, ENF24 on the word path. -/
theorem test_enforceWord : enforceWord (params .refuse) 0x007FFFF0 = none ∧
    enforceWord (params .refuse) 0x007FFFF4 = some (.outOfBounds 0x007FFFF4 16) ∧
    enforceWord (params .refuse) 0x007FFFF8 = some (.outOfBounds 0x007FFFF8 16) ∧
    enforceWord (params .refuse) 0xFFFEFFF0 = some (.outOfBounds 0xFFFEFFF0 16) ∧
    enforceWord (params .refuse) 0xFFFF0000 = none ∧
    enforceWord (params .refuse) 0xFFFF0008 = some (.misaligned 0xFFFF0008 16) ∧
    enforceWord (params .refuse) 0xFFFFFFFF = some (.misaligned 0xFFFFFFFF 16) := by decide

/-- ENF7, ENF12, ENF13, ENF23, ENF24 on the instruction path. -/
theorem test_enforceInstr : enforceInstr (params .refuse) 0x00001002 = some (.misaligned 0x00001002 4) ∧
    enforceInstr (params .refuse) 0x007FFFFC = none ∧
    enforceInstr (params .refuse) 0x00800000 = some (.outOfBounds 0x00800000 4) ∧
    enforceInstr (params .refuse) 0xFFFFFFFC = none ∧
    enforceInstr (params .refuse) 0xFFFFFFFF = some (.misaligned 0xFFFFFFFF 4) := by decide

/-! ### Address space -/

/-- AS1, AS27: a word store replaces what its key holds. -/
theorem test_storeWord : after (storeWord 0x1000 255 (block [])) =
      some { block [(0x1000, textFF)] with response := some .done } ∧
    after (storeWord 0x1000 255 (block [(0x1000, text "10")])) =
      some { block [(0x1000, textFF)] with response := some .done } := by decide

/-- AS10, AS11: the ports on a word store. -/
theorem test_storeWord_ports : after (storeWord 0xFFFF000C 5 { block [] with out := [5] }) =
      some { block [] with out := [5, 5], response := some .done } ∧
    after (storeWord 0xFFFF0004 5 (block [])) =
      some { block [] with response := some (.error (.misaligned 0xFFFF0004 16)) } := by decide

/-- 20 R82: a store at an input port on a 16-byte boundary writes its key, and a load at such an output port reads its
key. -/
theorem test_word_path_other_port : (after (storeWord 0xFFFF0010 255 (alignedPorts))).map State.store =
      some [(0xFFFF0010, textFF)] ∧
    response (loadWord 0xFFFF0020 (alignedPorts [(0xFFFF0020, textFF)])) = some (.word 255) := by decide

/-- AS2, AS3, AS12, AS26: word loads. -/
theorem test_loadWord : response (loadWord 0x1000 (block [(0x1000, textFF)])) = some (.word 255) ∧
    response (loadWord 0x1000 (block [])) = some (.word 0) ∧
    response (loadWord 0xFFFF000C (block [])) = some (.error (.misaligned 0xFFFF000C 16)) ∧
    response (loadWord 0x1000 (block [(0x1000, text "hello")])) =
      some (.error (.invalidNumeral (text "hello"))) := by decide

/-- AS13, AS24: a draw is consumed; an instruction-shaped text is refused. -/
theorem test_loadWord_input : (after (loadWord 0xFFFF0004 (block []))).map State.draws = some 1 ∧
    refusal (loadWord 0x1000 (block [(0x1000, text "10")])) = some (.kindMismatch 0x1000) := by decide

/-- AS17, AS22, AS18: instruction stores. -/
theorem test_storeInstruction : after (storeInstruction 0x1004 0x8C220004 (block [(0x1000, text "10")])) =
      some { block [(0x1000, text "10"), (0x1004, text "2624004")] with response := some .done } ∧
    after (storeInstruction 0x3000 0 (block [])) =
      some { block [(0x3000, text "0")] with response := some .done } ∧
    response (storeInstruction 0x1002 1 (block [])) = some (.error (.misaligned 0x1002 4)) := by decide

/-- AS28 to AS30: the output port on an instruction store, in each mode. -/
theorem test_storeInstruction_ports :
    refusal (storeInstruction 0xFFFF000C 1 (block [])) = some (.portOnInstructionPath 0xFFFF000C) ∧
    (after (storeInstruction 0xFFFF000C 1 (block [] .ordinary))).map State.store =
      some [(0xFFFF000C, text "1")] ∧
    (after (storeInstruction 0xFFFF000C 1 (block [] .special))).map State.out = some [1] := by decide

/-- AS16, AS21, AS23, AS25: fetches. -/
theorem test_fetchInstruction :
    response (fetchInstruction 0x1000 (block [(0x1000, text "10")])) = some (.instruction 0x20) ∧
    response (fetchInstruction 0x3000 (block [])) = some (.instruction 0) ∧
    response (fetchInstruction 0x1000 (block [(0x1000, textFF)])) = some (.error (.invalidDigit textFF)) ∧
    response (fetchInstruction 0x1000 (block [(0x1000, text "VVVVVVVV")])) =
      some (.error (.invalidDigit (text "VVVVVVVV"))) := by decide

/-- AS31, AS32: the ports on a fetch in mode special. -/
theorem test_fetchInstruction_ports :
    (after (fetchInstruction 0xFFFF0004 (block [] .special))).map State.draws = some 1 ∧
    response (fetchInstruction 0xFFFF000C (block [] .special)) = some (.instruction 0) := by decide

/-- 43 R282: a present key at a port, in mode ordinary and at the output port in mode special. -/
theorem test_fetchInstruction_ordinary_port :
    response (fetchInstruction 0xFFFF0004 (block [(0xFFFF0004, text "10")] .ordinary)) =
      some (.instruction 0x20) ∧
    response (fetchInstruction 0xFFFF000C (block [(0xFFFF000C, textFF)] .special)) =
      some (.error (.invalidDigit textFF)) := by decide

/-! ### Range query -/

/-- The store of the vectors' state Q, from 0x1010 on. -/
def storeQ : Memory := [(0x1000, text "10"), (0x1004, text "2624004"), (0x1010, textFF),
  (0x1030, text "zz"), (0x1040, text "VVVVVVVV")]

/-- QR3: an instruction and a word. -/
theorem test_query_values : queryEntries storeQ 0x1000 0x20 .base32 =
    [{ address := text "0x00001000", format := .base32, valid := true, error := none, value := some (text "10")
       isInstruction := true, instructionWord := some (text "0x00000020")
       decoded := some (.register (text "add") 0x20 0 0 0 0 0 0x20) },
     { address := text "0x00001010", format := .base32, valid := true, error := none, value := some (text "7V")
       isInstruction := false, instructionWord := none, decoded := none }] := by decide

/-- QR2, its foreign entries: the invalid markers. -/
theorem test_query_invalid : queryEntries storeQ 0x1030 0x20 .decimal =
    [{ address := text "0x00001030", format := .decimal, valid := false, error := some .invalidNumeral
       value := none, isInstruction := false, instructionWord := none, decoded := none },
     { address := text "0x00001040", format := .decimal, valid := false, error := some .invalidDigit
       value := none, isInstruction := true, instructionWord := none, decoded := none }] := by decide

/-- QR6, QR7, QR8, QR9: the ends of a query. -/
theorem test_query_ends : queryEntries storeQ 0x1000 0 .hex = [] ∧
    (queryEntries storeQ 0x1000 1 .hex).length = 1 ∧ queryEntries storeQ 0x1001 0x20 .hex = [] ∧
    strideCount 0xFFFFFFF0 0x100 = 1 := by decide

/-- INF1 on the five keys of this store. -/
theorem test_info : response (info (block storeQ)) = some (.info
    { totalSize := 8388608, usedAddressCount := 5, storageKind := text "kind" }) := by decide

/-! ### Host events -/

/-- 70 R364: a replacement changes the store alone. -/
theorem test_replaceStore :
    after (step (waiting (.replaceStore [(0x20, text "b"), (0x10, text "a")]) [(0x30, text "c")])) =
      some (block [(0x10, text "a"), (0x20, text "b")]) := by decide

/-- ERR6: a failed store changes nothing. -/
theorem test_failed_store : after (step (waiting (.request (.storeWord 0x1008 1)) [(0x1000, text "10")])) =
    some { block [(0x1000, text "10")] with response := some (.error (.misaligned 0x1008 16)) } := by decide

/-! ### Witnesses: for each statement with hypotheses, values that meet them, clause by clause -/

theorem witness_ArithmeticWordsReportTheirRecord :
    (opcodeField 0x00221820 = 0x00#6 ∧ functField 0x00221820 = 0x20#6) ∧
    (opcodeField 0x00221822 = 0x00#6 ∧ functField 0x00221822 = 0x22#6) ∧
    (opcodeField 0x00220018 = 0x00#6 ∧ functField 0x00220018 = 0x18#6) ∧
    (opcodeField 0x00220019 = 0x00#6 ∧ functField 0x00220019 = 0x19#6) ∧
    (opcodeField 0x0022001A = 0x00#6 ∧ functField 0x0022001A = 0x1A#6) ∧
    (opcodeField 0x0022001B = 0x00#6 ∧ functField 0x0022001B = 0x1B#6) ∧
    (opcodeField 0x0022182A = 0x00#6 ∧ functField 0x0022182A = 0x2A#6) ∧
    (opcodeField 0x03FFFFEB = 0x00#6 ∧ functField 0x03FFFFEB = 0x2B#6) := by decide

theorem witness_MoveAndJumpWordsReportTheirRecord :
    (opcodeField 0x00001810 = 0x00#6 ∧ functField 0x00001810 = 0x10#6) ∧
    (opcodeField 0x00001812 = 0x00#6 ∧ functField 0x00001812 = 0x12#6) ∧
    (opcodeField 0x00001814 = 0x00#6 ∧ functField 0x00001814 = 0x14#6) ∧
    (opcodeField 0x03E00008 = 0x00#6 ∧ functField 0x03E00008 = 0x08#6) ∧
    (opcodeField 0x03FFFFC9 = 0x00#6 ∧ functField 0x03FFFFC9 = 0x09#6) := by decide

theorem witness_ImmediateAndJumpWordsReportTheirRecord :
    opcodeField 0x8FFFFFFF = 0x23#6 ∧
    opcodeField 0xAC220004 = 0x2B#6 ∧
    opcodeField 0x1022FFFF = 0x04#6 ∧
    opcodeField 0x14A00003 = 0x05#6 ∧
    opcodeField 0x0BFFFFFF = 0x02#6 ∧
    opcodeField 0x0C000000 = 0x03#6 := by decide

theorem witness_UnrecognizedWordsReportTheirRecord :
    opcodeField 0x0000003F = 0x00#6 ∧ functField 0x0000003F ∉ namedFuncts ∧ functField 0 ∉ namedFuncts ∧
      opcodeField 0x04000000 ∉ namedOpcodes ∧ opcodeField 0xFFFFFFFF ∉ namedOpcodes := by decide

theorem witness_DecodeOfEncode : (Instr.unknownR 31 31 31 31 0x3F).wellFormed = true ∧
    (Instr.unknownI 0x01 0 0 0).wellFormed = true ∧ (Instr.add 0 0 0 0).wellFormed = true := by decide

theorem witness_SynthesizedNamesAreDistinct :
    synthNameR 0x3F = synthNameR 0x3F ∧ synthNameI 0x3F = synthNameI 0x3F := ⟨rfl, rfl⟩

theorem witness_DecodedFieldsRebuildTheWord :
    (0x03FFFFFF : Word).extractLsb 31 26 = 0#6 ∧ (0x04000000 : Word).extractLsb 31 26 ≠ 0#6 ∧
      (0x04000000 : Word).extractLsb 31 26 ≠ 2#6 ∧ (0x04000000 : Word).extractLsb 31 26 ≠ 3#6 ∧
      (0x0BFFFFFF : Word).extractLsb 31 26 = 2#6 ∧ (0x0C000000 : Word).extractLsb 31 26 = 3#6 := by decide

theorem witness_DecodeDependsOnTheWordAlone :
    (waiting (.request (.decode 0xFFFFFFFF))).inbox = .request (.decode 0xFFFFFFFF) :: [] ∧
      (waiting (.request (.decode 0xFFFFFFFF)) storeQ .special).inbox = .request (.decode 0xFFFFFFFF) :: [] :=
  ⟨rfl, rfl⟩

theorem witness_StepRunsTheDecodedInstruction :
    (waiting (.request (.decode 0))).inbox = .request (.decode 0) :: [] := rfl

theorem witness_NegativeOperandsAreRefused :
    refusal (performEncodeRegister 0 0 0 0 0 (-1) (block [])) = some (.negativeField .funct) ∧
      refusal (performEncodeRegisterStrict 64 (-1) (-1) 0 0 0 (block [])) = some (.negativeField .rs) ∧
      refusal (performEncodeImmediate 0 0 0 (-1) (block [])) = some (.negativeField .immediate) ∧
      refusal (performEncodeImmediateStrict (-1) 32 0 0 (block [])) = some (.negativeField .opcode) := by decide

theorem witness_DecodeOfEncoderOutput :
    (31 < 32 ∧ 63 < 64) ∧ (1 < 64 ∧ 1 ≠ 0 ∧ 1 ≠ 2 ∧ 1 ≠ 3) ∧ (63 < 64 ∧ 63 ≠ 0 ∧ 63 ≠ 2 ∧ 63 ≠ 3) ∧
      65535 < 65536 := by decide

theorem witness_InstructionTextDecodes :
    fromBase32 (text "3VVVVVV") = .ok 0xFFFFFFFF ∧ (0xFFFFFFFF : Word128).toNat < 2 ^ 32 ∧
      fromBase32 (text "4000000") = .ok 0x100000000 ∧ 2 ^ 32 ≤ (0x100000000 : Word128).toNat ∧
      fromBase32 [] = .error (.invalidDigit []) := by decide

theorem witness_DecimalTextRoundTrip : (toDecimal 0).head? = some (ascii '0') := by decide

theorem witness_ParseReadsBinaryTextInDecimal :
    2 ^ 39 ≤ (0x8000000000 : Word128).toNat ∧ (0x7FFFFFFFFF : Word128).toNat < 2 ^ 39 ∧
      2 ≤ (0x7FFFFFFFFF : Word128).toNat ∧ 2 ≤ (2 : Word128).toNat := by decide

theorem witness_Base32TextByDigits : 1 ≤ 7 ∧ 32 ^ (7 - 1) ≤ (0xFFFFFFFF : Word128).toNat ∧
    (0xFFFFFFFF : Word128).toNat < 32 ^ 7 ∧ 1 ≤ 1 ∧ 32 ^ (1 - 1) ≤ (1 : Word128).toNat ∧
    (toBase32 0).head? = some (ascii '0') := by decide

theorem witness_Base32RoundTrip : fromBase32 (text "0") = .ok 0 ∧ fromBase32 (text "V") = .ok 31 ∧
    fromBase32 (text "007") = .ok 7 ∧ (text "007").head? = some (ascii '0') ∧ (text "007") ≠ [ascii '0'] := by decide

theorem witness_PureRequestsAnswerTheirFunction : parse (text "0") = .ok 0 ∧
    parse [] = .error (.invalidNumeral []) ∧ fromBase32 (text "0") = .ok 0 ∧
    fromBase32 [] = .error (.invalidDigit []) := by decide

theorem witness_EntryKindsAreToldApart :
    isWordEntry textFF ∧ isInstructionEntry (text "10") ∧ isInstructionEntry (text "3VVVVVV") :=
  ⟨⟨255, by decide⟩, ⟨0x20, by decide⟩, ⟨0xFFFFFFFF, by decide⟩⟩

theorem witness_EnforcerAcceptsExactly : (params .refuse).capacity = 0x00800000 ∧
    (0x007FFFF0 : Addr).toNat < 0xFFFF0000 ∧ enforceWord (params .refuse) 0x007FFFF0 = none ∧
    enforceInstr (params .refuse) 0x007FFFFC = none := by decide

theorem witness_ChecksRaiseBoundsFirst :
    ((0x007FFFF1 : Addr) ≠ (block []).params.inputPort ∧ (0x007FFFF1 : Addr) ≠ (block []).params.outputPort ∧
      ¬ (0xFFFF0000 ≤ (0x007FFFF1 : Addr).toNat ∨ (0x007FFFF1 : Addr).toNat + 16 ≤ (block []).params.capacity)) ∧
    ((0x007FFFEF : Addr) ≠ (block []).params.inputPort ∧ (0x007FFFEF : Addr) ≠ (block []).params.outputPort ∧
      (0x007FFFEF : Addr).toNat + 16 ≤ (block []).params.capacity ∧ (0x007FFFEF : Addr).toNat % 16 ≠ 0) ∧
    ¬ (0xFFFF0000 ≤ (0xFFFEFFFF : Addr).toNat ∨ (0xFFFEFFFF : Addr).toNat + 4 ≤ (block []).params.capacity) ∧
    (0xFFFF0000 ≤ (0xFFFF0001 : Addr).toNat ∧ (0xFFFF0001 : Addr).toNat % 4 ≠ 0) := by decide

/-- 20 R82: the output port for a load, and the input port for a store, meet the misaligned clauses. -/
theorem witness_ChecksRaiseBoundsFirst_ports :
    ((block []).params.outputPort ≠ (block []).params.inputPort ∧
      0xFFFF0000 ≤ (block []).params.outputPort.toNat ∧ (block []).params.outputPort.toNat % 16 ≠ 0) ∧
    ((block []).params.inputPort ≠ (block []).params.outputPort ∧
      0xFFFF0000 ≤ (block []).params.inputPort.toNat ∧ (block []).params.inputPort.toNat % 16 ≠ 0) := by decide

/-- Where a fetch and an instruction store use the store: away from the ports, and at them in the modes that allow it
(43 R282). -/
theorem witness_ChecksRaiseBoundsFirst_routes :
    (fetchUsesStore (block []) 0xFFFEFFFF ∧ fetchUsesStore (block []) 0xFFFF0001 ∧
      fetchUsesStore (block [] .ordinary) 0xFFFF0004 ∧ fetchUsesStore (block [] .special) 0xFFFF000C) ∧
    storeUsesStore (block []) 0xFFFEFFFF ∧ storeUsesStore (block []) 0xFFFF0001 ∧
      storeUsesStore (block [] .ordinary) 0xFFFF000C ∧ storeUsesStore (block [] .special) 0xFFFF0004 := by
  unfold fetchUsesStore storeUsesStore
  decide

theorem witness_NoAddressComputationWraps :
    ((4 = 4) ∧ (16 = 16)) ∧ (0xFFFEFFFF : Addr).toNat < 0xFFFF0000 := by decide

theorem witness_LoadWordByEntry :
    (0x007FFFF0 : Addr) ≠ (block storeQ).params.inputPort ∧ (0x007FFFF0 : Addr).toNat % 16 = 0 ∧
      (0x007FFFF0 : Addr).toNat + 16 ≤ (block storeQ).params.capacity ∧ storeQ.read 0x007FFFF0 = none ∧
      (storeQ.read 0x1000 = some (text "10") ∧ looksLikeInstruction (text "10") = true) ∧
      (storeQ.read 0x1010 = some textFF ∧ looksLikeInstruction textFF = false ∧ parse textFF = .ok 255) ∧
      (storeQ.read 0x1030 = some (text "zz") ∧ looksLikeInstruction (text "zz") = false ∧
        parse (text "zz") = .error (.invalidNumeral (text "zz"))) := by decide

theorem witness_StoredWordIsLoaded :
    ((0x007FFFF0 : Addr) ≠ (block []).params.outputPort ∧ (0x007FFFF0 : Addr) ≠ (block []).params.inputPort ∧
      (0x007FFFF0 : Addr).toNat % 16 = 0 ∧ (0x007FFFF0 : Addr).toNat + 16 ≤ (block []).params.capacity) ∧
    ((0xFFFFFFF0 : Addr) ≠ (block []).params.outputPort ∧ (0xFFFFFFF0 : Addr) ≠ (block []).params.inputPort ∧
      (0xFFFFFFF0 : Addr).toNat % 16 = 0 ∧ 0xFFFF0000 ≤ (0xFFFFFFF0 : Addr).toNat) ∧
    ((alignedPorts []).params.inputPort ≠ (alignedPorts []).params.outputPort ∧
      (alignedPorts []).params.inputPort.toNat % 16 = 0 ∧
      0xFFFF0000 ≤ (alignedPorts []).params.inputPort.toNat) := by decide

theorem witness_StoredInstructionIsFetched :
    (storeUsesStore (block []) 0x007FFFFC ∧ fetchUsesStore (block []) 0x007FFFFC ∧
      (0x007FFFFC : Addr).toNat % 4 = 0 ∧ (0x007FFFFC : Addr).toNat + 4 ≤ (block []).params.capacity) ∧
    (storeUsesStore (block [] .ordinary) 0xFFFF000C ∧ fetchUsesStore (block [] .ordinary) 0xFFFF000C ∧
      (0xFFFF000C : Addr).toNat % 4 = 0 ∧ 0xFFFF0000 ≤ (0xFFFF000C : Addr).toNat) ∧
    (storeUsesStore (block [] .special) 0xFFFF0004 ∧ (0xFFFF0004 : Addr).toNat % 4 = 0) := by
  unfold fetchUsesStore storeUsesStore
  decide

theorem witness_MixedKindsAreNotReinterpreted :
    ((0x007FFFF0 : Addr) ≠ (block []).params.outputPort ∧ fetchUsesStore (block []) 0x007FFFF0 ∧
      (0x007FFFF0 : Addr) ≠ (block []).params.inputPort ∧ storeUsesStore (block []) 0x007FFFF0 ∧
      (0x007FFFF0 : Addr).toNat % 16 = 0 ∧ (0x007FFFF0 : Addr).toNat + 16 ≤ (block []).params.capacity) ∧
    ((0xFFFF0010 : Addr) ≠ (alignedPorts [] .ordinary).params.outputPort ∧
      fetchUsesStore (alignedPorts [] .ordinary) 0xFFFF0010 ∧
      (0xFFFF0020 : Addr) ≠ (alignedPorts [] .ordinary).params.inputPort ∧
      storeUsesStore (alignedPorts [] .ordinary) 0xFFFF0020 ∧
      (0xFFFF0010 : Addr).toNat % 16 = 0 ∧ (0xFFFF0020 : Addr).toNat % 16 = 0) := by
  unfold fetchUsesStore storeUsesStore
  decide

theorem witness_FetchInstructionByEntry :
    (fetchUsesStore (block storeQ) 0x007FFFFC ∧ (0x007FFFFC : Addr).toNat % 4 = 0 ∧
      (0x007FFFFC : Addr).toNat + 4 ≤ (block storeQ).params.capacity ∧
      (block storeQ).store.read 0x007FFFFC = none) ∧
    (fetchUsesStore (block storeQ) 0x1000 ∧ storeQ.read 0x1000 = some (text "10") ∧
      fromBase32 (text "10") = .ok 0x20 ∧ (0x20 : Word128).toNat < 2 ^ 32) ∧
    (fetchUsesStore (block storeQ) 0x1040 ∧ storeQ.read 0x1040 = some (text "VVVVVVVV") ∧
      fromBase32 (text "VVVVVVVV") = .ok 0xFFFFFFFFFF ∧ 2 ^ 32 ≤ (0xFFFFFFFFFF : Word128).toNat) ∧
    (fetchUsesStore (block storeQ) 0x1010 ∧ storeQ.read 0x1010 = some textFF ∧
      fromBase32 textFF = .error (.invalidDigit textFF)) := by
  unfold fetchUsesStore
  decide

theorem witness_InstructionPathPorts :
    ((0xFFFF000C : Addr) = (block []).params.outputPort ∧ (block []).params.instrPortMode = .refuse) ∧
      ((0xFFFF000C : Addr) = (block [] .special).params.outputPort ∧
        (0xFFFF0004 : Addr) = (block [] .special).params.inputPort ∧
        (block [] .special).params.instrPortMode = .special) ∧
      ((block [] .ordinary).params.instrPortMode = .ordinary ∧ (0xFFFF0004 : Addr).toNat % 4 = 0 ∧
        (block [] .ordinary).store.read 0xFFFF0004 = none) := by decide

/-- A present key at each port meets the last clause, by what its text is. -/
theorem witness_InstructionPathPorts_present :
    ((0xFFFF0004 : Addr) = (block [(0xFFFF0004, text "10")] .ordinary).params.inputPort ∧
      (block [(0xFFFF0004, text "10")] .ordinary).store.read 0xFFFF0004 = some (text "10") ∧
      fromBase32 (text "10") = .ok 0x20 ∧ (0x20 : Word128).toNat < 2 ^ 32) ∧
    ((0xFFFF000C : Addr) = (block [(0xFFFF000C, text "4000000")] .special).params.outputPort ∧
      (block [(0xFFFF000C, text "4000000")] .special).store.read 0xFFFF000C = some (text "4000000") ∧
      fromBase32 (text "4000000") = .ok 0x100000000 ∧ 2 ^ 32 ≤ (0x100000000 : Word128).toNat) ∧
    ((block [(0xFFFF000C, textFF)] .special).store.read 0xFFFF000C = some textFF ∧
      fromBase32 textFF = .error (.invalidDigit textFF)) := by decide

/-- A misaligned port meets the clauses of a port that is not on a 4-byte boundary (00 R8 asks for none). -/
theorem witness_InstructionPathPorts_misaligned : ∃ p : Params, p.instrPortMode = .ordinary ∧
    p.outputPort.toNat % 4 ≠ 0 :=
  ⟨{ capacity := 0, outputPort := 0xFFFF0001, inputPort := 0xFFFF0000, instrPortMode := .ordinary
     storageKind := [], valid := by decide }, by decide⟩

theorem witness_EntryFieldsFollowTheText :
    looksLikeInstruction (text "3VVVVVV") = true ∧ (0xFFFFFFFF : Word128).toNat < 2 ^ 32 ∧
      fromBase32 (text "3VVVVVV") = .ok 0xFFFFFFFF ∧
      (looksLikeInstruction (text "4000000") = true ∧ fromBase32 (text "4000000") = .ok 0x100000000) ∧
      (looksLikeInstruction textFF = false ∧ parse textFF = .ok 255) ∧
      (looksLikeInstruction [] = false ∧ parse [] = .error (.invalidNumeral [])) := by decide

theorem witness_SourceScenario : 0x1004 ≤ (params .refuse).capacity ∧
    0x1004 ≤ (params .refuse 0x1004).capacity := by decide

theorem witness_InfoCountsThePresentKeys : (block storeQ).store.wf := by decide

theorem witness_HostReplacementSetsTheStore :
    (waiting (.replaceStore [(0, text "a"), (0, text "b")])).inbox =
      .replaceStore [(0, text "a"), (0, text "b")] :: [] := rfl

theorem witness_OverlappingRequestsAreRefused :
    (waiting (.overlapping .info .info)).inbox = .overlapping .info .info :: [] := rfl

theorem witness_FailedOperationsChangeNothing :
    response (perform (.storeWord 0x00800000 1) (block [])) = some (.error (.outOfBounds 0x00800000 16)) := by decide

theorem witness_ErrorsHaveTheirListedCause :
    response (perform (.loadWord 0x007FFFF8) (block [])) = some (.error (.outOfBounds 0x007FFFF8 16)) ∧
      response (perform (.fetchInstruction 0x1001) (block [])) = some (.error (.misaligned 0x1001 4)) ∧
      response (perform (.loadWord 0x1030) (block storeQ)) = some (.error (.invalidNumeral (text "zz"))) ∧
      response (perform (.fetchInstruction 0x1010) (block storeQ)) = some (.error (.invalidDigit textFF)) ∧
      response (perform (.fromBase32 []) (block [])) = some (.error (.invalidDigit [])) ∧
      response (perform (.encodeImmediateFormatStrict 0 0 0 0x10000) (block [])) =
        some (.error (.fieldOutOfRange .immediate 0x10000)) := by decide

theorem witness_NothingHappensBetweenOperations : State.reset.inbox = [] := rfl

theorem witness_OnlyTheListedRefusals :
    refusal (step (waiting (.request (.loadWord 0x1000)) storeQ)) = some (.kindMismatch 0x1000) ∧
      refusal (step (waiting (.request (.fetchInstruction 0xFFFF0004)))) =
        some (.portOnInstructionPath 0xFFFF0004) ∧
      refusal (step (waiting (.overlapping .info .info))) = some .concurrentRequest ∧
      refusal (step (waiting (.request (.encodeImmediateFormat 0 (-1) 0 0)))) =
        some (.negativeField .rs) := by decide

/-- For the rules of the whole machine: a step that stores a word, on a canonical store of the block's own entries. -/
theorem witness_StepKeepsTheStoreCanonical :
    (waiting (.request (.storeWord 0x1000 255)) [(0x1000, text "10")]).store.wf ∧
      (after (step (waiting (.request (.storeWord 0x1000 255)) [(0x1000, text "10")]))).map State.store =
        some [(0x1000, textFF)] := by decide

theorem witness_StepKeepsEntriesBlockWritten :
    (∀ e, (waiting (.request (.storeWord 0x1000 255)) [(0x1000, text "10")]).inbox.head? = some e →
      blockEvent e = true) ∧ blockWritten [(0x1000, text "10")] := by
  refine ⟨fun e h => ?_, fun p hp => ?_⟩
  · cases h
    rfl
  · simp only [List.mem_singleton] at hp
    subst hp
    exact .inr ⟨0x20, by decide⟩

theorem witness_OutputLogOnlyGrows :
    (after (step (waiting (.request (.storeWord 0xFFFF000C 5))))).map State.out = some [5] ∧
      (after (step (waiting (.request (.storeInstruction 0xFFFF000C 5)) [] .special))).map State.out =
        some [5] := by decide

theorem witness_KeysNeverDisappear :
    blockEvent (.request (.storeWord 0x1000 255)) = true ∧
      (Memory.read [(0x1000, text "10")] 0x1000).isSome = true := by decide

theorem witness_KeysChangeOnlyByTheirStore :
    (after (step (waiting (.request (.storeInstruction 0x1004 0x20))))).map (fun t => t.store.read 0x1004) =
      some (some (text "10")) ∧ (waiting (.request (.storeInstruction 0x1004 0x20))).store.read 0x1004 = none := by
  decide

theorem witness_ParametersNeverChange : step State.reset = .next State.reset := rfl

theorem witness_DrawsOnlyAtTheInputPort :
    (after (step (waiting (.request (.loadWord 0xFFFF0004))))).map State.draws = some 1 ∧
      (after (step (waiting (.request (.fetchInstruction 0xFFFF0004)) [] .special))).map State.draws =
        some 1 := by decide

end Sys2Proof.Tests
end

namespace Sys2Proof.Machine

/-- Settles O59: the laws of construction say each field of a block just constructed, and the reset state is by
definition a construction, so it is the one with its own parameters (10 R53, 70 R360). -/
theorem constructionIsEmpty : Obligations.ConstructionIsEmpty := by
  refine ⟨fun p => ?fields, ?reset⟩
  case fields => exact ⟨State.construct_store p, State.construct_out p, State.construct_params p⟩
  case reset => rw [State.reset, State.construct_params]

end Sys2Proof.Machine

namespace Sys2Proof.Machine

/-- The spec's shift and mask of 30 R116 in the quotient and remainder in which the field laws speak. -/
theorem shiftRight_and_mask (x start len : Nat) :
    (x >>> start) &&& (2 ^ len - 1) = x / 2 ^ start % 2 ^ len := by
  rw [Nat.and_two_pow_sub_one_eq_mod, Nat.shiftRight_eq_div_pow]

/-- The opcode is the top field: its mask of 30 R116 removes nothing, as a word has 32 bits. -/
theorem opcodeField_toNat_eq_mod (w : Word) : (opcodeField w).toNat = w.toNat / 2 ^ 26 % 2 ^ 6 := by
  have hfits : w.toNat / 2 ^ 26 < 2 ^ 6 := opcodeField_toNat w ▸ (opcodeField w).isLt
  rw [opcodeField_toNat, Nat.mod_eq_of_lt hfits]

/-- Settles O1: the laws of the fields give each as a quotient and a remainder by powers of two, which are the spec's
shift and mask (30 R116). -/
theorem fieldsAreTheSpecifiedBits : Obligations.FieldsAreTheSpecifiedBits := by
  intro w
  refine ⟨?opcode, ?rs, ?rt, ?rd, ?shamt, ?funct, ?imm, ?addr⟩
  case opcode => exact (opcodeField_toNat_eq_mod w).trans (shiftRight_and_mask w.toNat 26 6).symm
  case rs => exact (rsField_toNat w).trans (shiftRight_and_mask w.toNat 21 5).symm
  case rt => exact (rtField_toNat w).trans (shiftRight_and_mask w.toNat 16 5).symm
  case rd => exact (rdField_toNat w).trans (shiftRight_and_mask w.toNat 11 5).symm
  case shamt => exact (shamtField_toNat w).trans (shiftRight_and_mask w.toNat 6 5).symm
  case funct => exact (functField_toNat w).trans (Nat.and_two_pow_sub_one_eq_mod w.toNat 6).symm
  case imm => exact (immField_toNat w).trans (Nat.and_two_pow_sub_one_eq_mod w.toNat 16).symm
  case addr => exact (addrField_toNat w).trans (Nat.and_two_pow_sub_one_eq_mod w.toNat 26).symm

end Sys2Proof.Machine

namespace Sys2Proof.Machine

/-! ### The radix converter: the pure requests -/

theorem answer_ok (x : Response) (s : State) : answer (.ok x) s = .next { s with response := some x } := rfl

theorem answer_map_ok {α : Type} {result : Except OpError α} {u : α} (h : result = .ok u) (f : α → Response)
    (s : State) : answer (result.map f) s = .next { s with response := some (f u) } := by
  subst h
  rfl

theorem answer_map_error {α : Type} {result : Except OpError α} {e : OpError} (h : result = .error e)
    (f : α → Response) (s : State) :
    answer (result.map f) s = .next { s with response := some (.error e) } := by
  subst h
  rfl

/-- Settles O26: each request answers with its function's result, and `parse` and `fromBase32` have one error each
(40 R167, 43 R306, R307). -/
theorem pureRequestsAnswerTheirFunction : Obligations.PureRequestsAnswerTheirFunction := by
  intro v t w fmt s
  refine ⟨?hex, ?decimal, ?binary, ?base32, ?render, ?encodeText, ?classify, ?parseOk, ?parseError, ?base32Ok,
    ?base32Error, ?singleQuery, ?defaultQuery, ?rangeQuery⟩
  case hex => exact answer_ok _ s
  case decimal => exact answer_ok _ s
  case binary => exact answer_ok _ s
  case base32 => exact answer_ok _ s
  case render => cases fmt <;> exact answer_ok _ s
  case encodeText => exact answer_ok _ s
  case classify => exact answer_ok _ s
  case parseOk => exact fun u h => answer_map_ok h .word s
  case parseError => exact fun e h => parse_error h ▸ answer_map_error h .word s
  case base32Ok => exact fun u h => answer_map_ok h .word s
  case base32Error => exact fun e h => fromBase32_error h ▸ answer_map_error h .word s
  case singleQuery => exact fun a => ⟨rfl, rfl⟩
  case defaultQuery => rfl
  case rangeQuery => rfl

end Sys2Proof.Machine

namespace Sys2Proof.Machine

/-! ### Digit characters -/

/-- Within an alphabet, the character of a digit is the one at its place, whatever stands for a missing one. -/
theorem getD_eq_digitChar {alphabet : Text} {d : Nat} (h : d < alphabet.length) (missing : AsciiChar) :
    alphabet.getD d missing = digitChar alphabet d := by
  simp [digitChar, List.getD, h]

theorem isDecChar_digitChar : ∀ d < 10, isDecChar (digitChar decimalDigits d) = true := by decide

theorem digitChar_decimal_eq_zero : ∀ d < 10, digitChar decimalDigits d = ascii '0' → d = 0 := by decide

theorem digitChar_base32_eq_zero : ∀ d < 32, digitChar base32Digits d = ascii '0' → d = 0 := by decide

/-- A minimal numeral does not begin with the character 0, if that is the character of the digit 0 alone. -/
theorem minimalDigits_map_head? {base fuel v : Nat} {alphabet : Text} (hb : 0 < base) (hv : v < base ^ fuel)
    (hzero : ∀ d < base, digitChar alphabet d = ascii '0' → d = 0) :
    ((minimalDigits base fuel v).map (digitChar alphabet)).head? ≠ some (ascii '0') := by
  cases hm : minimalDigits base fuel v with
  | nil => simp
  | cons d ds =>
    have hd : d < base := minimalDigits_lt hb fuel v d (hm ▸ List.mem_cons_self)
    intro hhead
    exact minimalDigits_head hv hm (hzero d hd (Option.some.inj hhead))

/-! ### `parse` on a text whose number is known -/

/-- The bound of R151 holds of every number that a word has. -/
theorem parse_of_parseNat {t : Text} {v : Word128} (h : parseNat t = some v.toNat) : parse t = .ok v := by
  simp [parse, h, word128Of, v.isLt]

theorem parseNat_of_hexMark {t d : Text} (h : afterHexMark t = some d) : parseNat t = readNumeral 16 hexValue d := by
  simp [parseNat, h]

theorem parseNat_of_decimal {t : Text} {v : Nat} (hmark : afterHexMark t = none)
    (h : readNumeral 10 decimalValue t = some v) : parseNat t = some v := by
  simp [parseNat, hmark, h]

theorem parseNat_of_not_decimal {t : Text} (hmark : afterHexMark t = none)
    (h : readNumeral 10 decimalValue t = none) : parseNat t = readNumeral 16 hexValue t := by
  simp [parseNat, hmark, h]

theorem readNumeral_of_ne_nil {base : Nat} {value : AsciiChar → Option Nat} {t : Text} (h : t ≠ []) :
    readNumeral base value t = readDigits base value 0 t := if_neg h

/-! ### Hexadecimal (40 R153, R155) -/

theorem afterHexMark_hexN (v n : Nat) :
    afterHexMark (hexN v n) = some ((fixedDigits 16 n v).map (digitChar hexDigitsLower)) := rfl

/-- A hexadecimal numeral of at least one digit reads as its value modulo 16 to the number of its digits. -/
theorem parseNat_hexN (v : Nat) {n : Nat} (hn : n ≠ 0) : parseNat (hexN v n) = some (v % 16 ^ n) := by
  have hne : (fixedDigits 16 n v).map (digitChar hexDigitsLower) ≠ [] := by
    simpa [← List.length_eq_zero_iff, fixedDigits_length] using hn
  rw [parseNat_of_hexMark (afterHexMark_hexN v n), readNumeral_of_ne_nil hne, readDigits_hex]

/-- 40 R153. -/
theorem parse_toHex (v : Word128) : parse (toHex v) = .ok v := by
  have hfits : v.toNat % 16 ^ 32 = v.toNat := Nat.mod_eq_of_lt v.isLt
  exact parse_of_parseNat (by rw [toHex, parseNat_hexN v.toNat (by decide), hfits])

/-- The digit at a place of a hexadecimal numeral, as the spec's shift and mask. -/
theorem hexN_getElem? (v : Nat) {n i : Nat} (h : i < n) :
    (hexN v n)[n + 1 - i]? = some (digitChar hexDigitsLower ((v >>> (4 * i)) &&& 0xF)) := by
  have hplace : n + 1 - i = n - 1 - i + 2 := by omega
  have hdigit : (v >>> (4 * i)) &&& 0xF = v / 16 ^ i % 16 :=
    (shiftRight_and_mask v (4 * i) 4).trans (by simp [pow_mul])
  rw [hplace, hexN_eq, List.getElem?_cons_succ, List.getElem?_cons_succ, List.getElem?_map, fixedDigits_getElem? 16 v h,
    hdigit, Option.map_some]

/-- Settles O20: `toHex` is `0x` and fixed digits, which read back as the word's number modulo 16 ^ 32, the number
itself (40 R153, R155). -/
theorem hexTextRoundTrip : Obligations.HexTextRoundTrip := by
  intro v
  refine ⟨parse_toHex v, hexN_length v.toNat 32, rfl, fun i hi => ?digit⟩
  case digit =>
    have hd : (v.toNat >>> (4 * i)) &&& 0xF < hexDigitsLower.length := Nat.lt_succ_of_le Nat.and_le_right
    exact (hexN_getElem? v.toNat hi).trans (congrArg some (getD_eq_digitChar hd (ascii '?')).symm)

/-! ### Decimal (40 R154, R157) -/

theorem toNat_lt_ten_pow (v : Word128) : v.toNat < 10 ^ 39 := v.isLt.trans (by decide)

theorem toDecimal_of_ne_zero {v : Word128} (h : v ≠ 0) :
    toDecimal v = (minimalDigits 10 39 v.toNat).map (digitChar decimalDigits) := if_neg h

theorem toDecimal_ne_nil (v : Word128) : toDecimal v ≠ [] := by
  by_cases h : v = 0
  · simp [toDecimal, h]
  · have hv : v.toNat ≠ 0 := fun h0 => h (BitVec.eq_of_toNat_eq h0)
    rw [toDecimal_of_ne_zero h]
    exact List.map_eq_nil_iff.not.2 (minimalDigits_ne_nil hv (by decide))

theorem toDecimal_all (v : Word128) : (toDecimal v).all isDecChar = true := by
  by_cases h : v = 0
  · subst h
    decide
  · simp only [toDecimal_of_ne_zero h, List.all_map, List.all_eq_true]
    exact fun d hd => isDecChar_digitChar d (minimalDigits_lt (by decide) 39 v.toNat d hd)

theorem readDigits_toDecimal (v : Word128) : readDigits 10 decimalValue 0 (toDecimal v) = some v.toNat := by
  by_cases h : v = 0
  · subst h
    decide
  · rw [toDecimal_of_ne_zero h,
      readDigits_map fun d hd => decimalValue_digitChar d (minimalDigits_lt (by decide) 39 v.toNat d hd),
      minimalDigits_value (toNat_lt_ten_pow v)]

/-- A text of decimal digits has no `0x`, as `x` is no decimal digit. -/
theorem afterHexMark_of_all_isDecChar {t : Text} (h : t.all isDecChar = true) : afterHexMark t = none := by
  unfold afterHexMark
  split
  · next c d t =>
    have hd : isDecChar d = true := List.all_eq_true.1 h d (by simp)
    have hx : d ≠ ascii 'x' := fun he => absurd (he ▸ hd) (by decide)
    exact if_neg fun hmark => hx hmark.2
  · rfl

theorem parse_toDecimal (v : Word128) : parse (toDecimal v) = .ok v := by
  have hread : readNumeral 10 decimalValue (toDecimal v) = some v.toNat := by
    rw [readNumeral_of_ne_nil (toDecimal_ne_nil v), readDigits_toDecimal]
  exact parse_of_parseNat (parseNat_of_decimal (afterHexMark_of_all_isDecChar (toDecimal_all v)) hread)

/-- Settles O21: the text of a value that is not 0 is its minimal digits, which have no leading 0 and read back as the
value; 39 of them suffice, as 2 ^ 128 is below 10 ^ 39 (40 R154, R157). -/
theorem decimalTextRoundTrip : Obligations.DecimalTextRoundTrip := by
  intro v
  refine ⟨parse_toDecimal v, toDecimal_all v, fun hhead => ?leadingZero, fun h => if_pos h, ?length⟩
  case leadingZero =>
    by_contra h
    rw [toDecimal_of_ne_zero h] at hhead
    exact minimalDigits_map_head? (by decide) (toNat_lt_ten_pow v) digitChar_decimal_eq_zero hhead
  case length =>
    by_cases h : v = 0
    · simp [toDecimal, h]
    · simpa [toDecimal_of_ne_zero h] using minimalDigits_length_le (toNat_lt_ten_pow v)

/-! ### Binary (40 R158) -/

theorem digitChar_decimal_bit (b : Bool) : digitChar decimalDigits b.toNat = if b then ascii '1' else ascii '0' := by
  cases b <;> rfl

/-- Settles O23: the digit of a radix-2 numeral at a place is the bit there (40 R158). -/
theorem binaryTextIsTheBits : Obligations.BinaryTextIsTheBits := by
  intro v
  refine ⟨by simp [toBinary, fixedDigits_length], fun i hi => ?bit⟩
  case bit =>
    have hbit : v.toNat / 2 ^ i % 2 = (v.getLsbD i).toNat := by
      rw [BitVec.getLsbD, Nat.toNat_testBit]
    rw [toBinary, List.getElem?_map, fixedDigits_getElem? 2 v.toNat hi, hbit, Option.map_some, digitChar_decimal_bit]

/-! ### Base 32 (40 R161) -/

theorem toNat_lt_base32_pow (v : Word128) : v.toNat < 32 ^ 26 := v.isLt.trans (by decide)

theorem base32Numeral_of_ne_zero {v : Nat} (h : v ≠ 0) :
    base32Numeral v = (minimalDigits 32 26 v).map (digitChar base32Digits) := if_neg h

theorem base32Numeral_of_lt {v : Nat} (h : v < 32) : base32Numeral v = [digitChar base32Digits v] := by
  by_cases h0 : v = 0
  · subst h0
    rfl
  · simp [base32Numeral_of_ne_zero h0, minimalDigits, h0, Nat.div_eq_of_lt h, Nat.mod_eq_of_lt h]

/-- R161's loop, one digit at a time from the right: the digits above need one unit of fuel less. -/
theorem base32Numeral_of_le {v : Nat} (h : 32 ≤ v) (hv : v < 32 ^ 26) :
    base32Numeral v = base32Numeral (v / 32) ++ [digitChar base32Digits (v % 32)] := by
  have hq : v / 32 < 32 ^ 25 := Nat.div_lt_of_lt_mul hv
  have hfuel : minimalDigits 32 25 (v / 32) = minimalDigits 32 26 (v / 32) := minimalDigits_fuel hq (by omega)
  rw [base32Numeral_of_ne_zero (by omega), base32Numeral_of_ne_zero (by omega), minimalDigits, if_neg (by omega), hfuel,
    List.map_append, List.map_singleton]

theorem base32Numeral_length_eq {v k : Nat} (hk : 1 ≤ k) (hlow : 32 ^ (k - 1) ≤ v) (hhigh : v < 32 ^ k)
    (hv : v < 32 ^ 26) : (base32Numeral v).length = k := by
  have hfuel : k - 1 < 26 := (Nat.pow_lt_pow_iff_right (by decide)).1 (hlow.trans_lt hv)
  have h0 : v ≠ 0 := ((Nat.pow_pos (by decide)).trans_le hlow).ne'
  have hle : (base32Numeral v).length ≤ k := base32Numeral_length_le hk hhigh
  have hlt : k - 1 < (base32Numeral v).length := by
    simpa [base32Numeral_of_ne_zero h0] using lt_minimalDigits_length (by decide) hfuel hlow
  omega

theorem base32Numeral_head_zero {v : Nat} (hv : v < 32 ^ 26) (hhead : (base32Numeral v).head? = some (ascii '0')) :
    base32Numeral v = [ascii '0'] := by
  by_cases h : v = 0
  · exact if_pos h
  · rw [base32Numeral_of_ne_zero h] at hhead
    exact absurd hhead (minimalDigits_map_head? (by decide) hv digitChar_base32_eq_zero)

/-- Settles O24: the recurrence and the lengths of base-32 numerals, at the numbers of 128-bit and of 32-bit words
(40 R161). -/
theorem base32TextByDigits : Obligations.Base32TextByDigits := by
  refine ⟨fun v => ?recurrence, fun v k hk hlow hhigh => ?exactLength, fun v => ⟨?length, ?leadingZero⟩,
    fun w => ?wordLength⟩
  case recurrence =>
    split
    case isTrue h =>
      exact (base32Numeral_of_lt h).trans (congrArg (fun c => [c]) (getD_eq_digitChar (by exact h) (ascii '?')).symm)
    case isFalse h =>
      have hshift : (v >>> 5).toNat = v.toNat / 32 := by
        rw [BitVec.toNat_ushiftRight, Nat.shiftRight_eq_div_pow]
      have hd : v.toNat % 32 < base32Digits.length := Nat.mod_lt _ (by decide)
      rw [toBase32, toBase32, hshift, base32Numeral_of_le (by omega) (toNat_lt_base32_pow v)]
      exact congrArg (fun c => _ ++ [c]) (getD_eq_digitChar hd (ascii '?')).symm
  case exactLength => exact base32Numeral_length_eq hk hlow hhigh (toNat_lt_base32_pow v)
  case length => exact base32Numeral_length_le (by decide) (toNat_lt_base32_pow v)
  case leadingZero => exact base32Numeral_head_zero (toNat_lt_base32_pow v)
  case wordLength =>
    rw [wordToBase32_eq]
    exact base32Numeral_length_le (by decide) (w.isLt.trans (by decide))

/-! ### The grammars (40 R151, R160, R163) -/

/-- The alphabets' places and the character codes give the same digits. -/
theorem decimalValue_eq : ∀ c, decimalValue c = if isDecChar c then some (charDigit c) else none := by decide

theorem digitValue_hexDigitsLower : ∀ c, digitValue hexDigitsLower c =
    if isDecChar c || (decide (ascii 'a' ≤ c) && decide (c ≤ ascii 'f')) then some (charDigit c) else none := by
  decide

theorem digitValue_hexDigitsUpper : ∀ c, digitValue hexDigitsUpper c =
    if isDecChar c || (decide (ascii 'A' ≤ c) && decide (c ≤ ascii 'F')) then some (charDigit c) else none := by
  decide

/-- Where both alphabets have the character, it is a decimal digit, and they agree. -/
theorem hexValue_eq (c : AsciiChar) : hexValue c = if isHexChar c then some (charDigit c) else none := by
  rw [hexValue, digitValue_hexDigitsLower, digitValue_hexDigitsUpper, isHexChar]
  cases isDecChar c with
  | true => rfl
  | false => cases decide (ascii 'a' ≤ c) && decide (c ≤ ascii 'f') <;> rfl

theorem isB32Char_digitChar : ∀ d < 32, isB32Char (digitChar base32Digits d) = true := by decide

theorem charDigit_lt_of_isB32Char : ∀ c, isB32Char c = true → charDigit c < 32 := by decide

theorem digitChar_charDigit_of_isB32Char : ∀ c, isB32Char c = true → digitChar base32Digits (charDigit c) = c := by
  decide

theorem base32Value_eq (c : AsciiChar) : base32Value c = if isB32Char c then some (charDigit c) else none := by
  by_cases hc : isB32Char c = true
  · have hplace := base32Value_digitChar (charDigit c) (charDigit_lt_of_isB32Char c hc)
    rw [digitChar_charDigit_of_isB32Char c hc] at hplace
    rw [hplace, if_pos hc]
  · rw [if_neg hc, Option.eq_none_iff_forall_ne_some]
    intro d hd
    exact hc (digitChar_base32Value hd ▸ isB32Char_digitChar d (base32Value_lt hd))

section Reading
variable {value : AsciiChar → Option Nat} {accepts : AsciiChar → Bool}
  (hvalue : ∀ c, value c = if accepts c then some (charDigit c) else none)
include hvalue

theorem readDigits_eq_foldl (base acc : Nat) (t : Text) :
    readDigits base value acc t =
      if t.all accepts then some (t.foldl (fun v c => v * base + charDigit c) acc) else none := by
  induction t generalizing acc with
  | nil => rfl
  | cons c t ih =>
    rw [readDigits, hvalue c]
    cases hc : accepts c with
    | false => simp [hc]
    | true => simpa [hc] using ih (acc * base + charDigit c)

/-- A text that is not empty and of the radix's characters alone is the numeral of its value. -/
theorem readNumeral_of_grammar (base : Nat) {t : Text} (h : t ≠ [] ∧ t.all accepts = true) :
    readNumeral base value t = some (textValue base t) := by
  rw [readNumeral_of_ne_nil h.1, readDigits_eq_foldl hvalue, if_pos h.2, textValue]

/-- No other text is a numeral of the radix. -/
theorem readNumeral_of_not_grammar (base : Nat) {t : Text} (h : ¬(t ≠ [] ∧ t.all accepts = true)) :
    readNumeral base value t = none := by
  by_cases hne : t = []
  · exact if_pos hne
  · rw [readNumeral_of_ne_nil hne, readDigits_eq_foldl hvalue, if_neg fun hall => h ⟨hne, hall⟩]

end Reading

theorem word128Of_eq_boundedNumeral (v : Nat) (t : Text) : word128Of v (.invalidNumeral t) = boundedNumeral t v := by
  by_cases h : v < 2 ^ 128
  · rw [word128Of, boundedNumeral, if_pos h, if_neg h.not_ge]
  · rw [word128Of, boundedNumeral, if_neg h, if_pos (not_lt.1 h)]

theorem parse_of_parseNat_some {t : Text} {v : Nat} (h : parseNat t = some v) : parse t = boundedNumeral t v := by
  rw [← word128Of_eq_boundedNumeral, parse, h]

theorem parse_of_parseNat_none {t : Text} (h : parseNat t = none) : parse t = .error (.invalidNumeral t) := by
  rw [parse, h]

theorem afterHexMark_eq (t : Text) :
    afterHexMark t =
      if 2 ≤ t.length ∧ t[0]? = some (ascii '0') ∧ t[1]? = some (ascii 'x') then some (t.drop 2) else none := by
  match t with
  | [] => rfl
  | [c] => rfl
  | c :: d :: t => simp [afterHexMark]

/-- The three readings of R151, in its order: after a mark hexadecimal alone, else decimal, else hexadecimal. -/
theorem parse_eq_grammarParse (t : Text) : parse t = grammarParse t := by
  unfold grammarParse
  split
  · next hmark =>
    have hparse : parseNat t = readNumeral 16 hexValue (t.drop 2) :=
      parseNat_of_hexMark (by rw [afterHexMark_eq, if_pos hmark])
    split
    · next hbad =>
      exact parse_of_parseNat_none (hparse.trans (readNumeral_of_not_grammar hexValue_eq 16 (by grind)))
    · next hgood =>
      exact parse_of_parseNat_some (hparse.trans (readNumeral_of_grammar hexValue_eq 16 (by simpa using hgood)))
  · next hmark =>
    have hnone : afterHexMark t = none := by rw [afterHexMark_eq, if_neg hmark]
    split
    · next hdec =>
      exact parse_of_parseNat_some (parseNat_of_decimal hnone (readNumeral_of_grammar decimalValue_eq 10 hdec))
    · next hdec =>
      have hparse : parseNat t = readNumeral 16 hexValue t :=
        parseNat_of_not_decimal hnone (readNumeral_of_not_grammar decimalValue_eq 10 hdec)
      split
      · next hhex => exact parse_of_parseNat_some (hparse.trans (readNumeral_of_grammar hexValue_eq 16 hhex))
      · next hhex => exact parse_of_parseNat_none (hparse.trans (readNumeral_of_not_grammar hexValue_eq 16 hhex))

theorem fromBase32_eq_grammarFromBase32 (t : Text) : fromBase32 t = grammarFromBase32 t := by
  by_cases h : t ≠ [] ∧ t.all isB32Char = true
  · rw [fromBase32, readNumeral_of_grammar base32Value_eq 32 h, grammarFromBase32, if_neg h.1,
      if_neg (Bool.not_eq_false _ ▸ h.2)]
    by_cases hv : textValue 32 t < 2 ^ 128
    · rw [if_neg hv.not_ge]
      exact if_pos hv
    · rw [if_pos (not_lt.1 hv)]
      exact if_neg hv
  · rw [fromBase32, readNumeral_of_not_grammar base32Value_eq 32 h, grammarFromBase32]
    by_cases hne : t = []
    · rw [if_pos hne]
    · rw [if_neg hne, if_pos (by grind)]

/-- Settles O27: the alphabets give the digits that the character codes give, so reading a numeral gives the value of
its text, and both sides take the same branch (40 R151, R160, R163). -/
theorem numeralsFollowTheirGrammars : Obligations.NumeralsFollowTheirGrammars :=
  fun t => ⟨parse_eq_grammarParse t, fromBase32_eq_grammarFromBase32 t⟩

end Sys2Proof.Machine

namespace Sys2Proof

/-! ### The format of a word, by its opcode (30 R111) -/

theorem decodeWord_register {w : Word} (h : opcodeField w = 0x00#6) :
    decodeWord w = decodeRegister (rsField w) (rtField w) (rdField w) (shamtField w) (functField w) := by
  simp only [decodeWord, h]

theorem decodeWord_j {w : Word} (h : opcodeField w = 0x02#6) : decodeWord w = .j (addrField w) := by
  simp only [decodeWord, h]

theorem decodeWord_jal {w : Word} (h : opcodeField w = 0x03#6) : decodeWord w = .jal (addrField w) := by
  simp only [decodeWord, h]

theorem decodeWord_immediate {w : Word} (hregister : opcodeField w ≠ 0x00#6) (hj : opcodeField w ≠ 0x02#6)
    (hjal : opcodeField w ≠ 0x03#6) :
    decodeWord w = decodeImmediate (opcodeField w) (rsField w) (rtField w) (immField w) := by
  unfold decodeWord
  split
  · next h => exact absurd h hregister
  · next h => exact absurd h hj
  · next h => exact absurd h hjal
  · rfl

end Sys2Proof

namespace Sys2Proof.Machine

/-! ### The decoder and the printed tables -/

theorem functTable_keys_named : ∀ row ∈ functTable, row.1 ∈ namedFuncts := by decide

theorem opcodeTable_keys_named : ∀ row ∈ opcodeTable, row.1 ∈ namedOpcodes := by decide

/-- A table whose keys are all in a list finds nothing for a key outside the list. -/
theorem lookup_eq_none_of_not_mem {keys : List (BitVec 6)} {table : List (BitVec 6 × Text)} {k : BitVec 6}
    (hkeys : ∀ row ∈ table, row.1 ∈ keys) (hk : k ∉ keys) : table.lookup k = none :=
  List.lookup_eq_none_iff.2 fun row hrow => bne_iff_ne.2 fun heq => hk (heq ▸ hkeys row hrow)

/-- The record of a funct's row carries the name of 41 R190: `FUNCT_TABLE`'s if it has one, else the synthesized. -/
theorem recordOf_decodeRegister (rs rt rd shamt : RegIndex) (f : BitVec 6) :
    recordOf (decodeRegister rs rt rd shamt f) =
      registerRecord ((functTable.lookup f).getD (synthNameR f)) rs rt rd shamt f := by
  by_cases h : f ∈ namedFuncts
  · fin_cases h <;> rfl
  · rw [decodeRegister_other rs rt rd shamt h, lookup_eq_none_of_not_mem functTable_keys_named h]
    rfl

/-- The record of an opcode's row carries the name of 41 R190: `OPCODE_TABLE`'s if it has one, else the synthesized. -/
theorem recordOf_decodeImmediate (op : BitVec 6) (rs rt : RegIndex) (imm : BitVec 16) :
    recordOf (decodeImmediate op rs rt imm) =
      immediateRecord ((opcodeTable.lookup op).getD (synthNameI op)) op rs rt imm := by
  by_cases h : op ∈ namedOpcodes
  · fin_cases h <;> rfl
  · rw [decodeImmediate_other rs rt imm h, lookup_eq_none_of_not_mem opcodeTable_keys_named h]
    rfl

/-! ### A record of a word's own fields has the word as its raw field (30 R115) -/

theorem registerRecord_fields {w : Word} (h : opcodeField w = 0x00#6) (m : Text) :
    registerRecord m (rsField w) (rtField w) (rdField w) (shamtField w) (functField w) =
      .register m w (opcodeField w) (rsField w) (rtField w) (rdField w) (shamtField w) (functField w) := by
  rw [registerRecord, ← h, packRegister_fields]

theorem immediateRecord_fields (w : Word) (m : Text) :
    immediateRecord m (opcodeField w) (rsField w) (rtField w) (immField w) =
      .immediate m w (opcodeField w) (rsField w) (rtField w) (immField w) := by
  rw [immediateRecord, packImmediate_fields]

theorem jumpRecord_fields (w : Word) (m : Text) :
    jumpRecord m (opcodeField w) (addrField w) = .jump m w (opcodeField w) (addrField w) := by
  rw [jumpRecord, packJump_fields]

/-! ### R190's pseudocode, a branch at a time -/

theorem tableRecord_register {w : Word} (h : opcodeField w = 0x00#6) :
    tableRecord w =
      .register ((functTable.lookup (functField w)).getD (synthNameR (functField w))) w (opcodeField w) (rsField w)
        (rtField w) (rdField w) (shamtField w) (functField w) := if_pos h

theorem tableRecord_jump {w : Word} (h : opcodeField w = 0x02#6 ∨ opcodeField w = 0x03#6) :
    tableRecord w =
      .jump (if opcodeField w = 0x02#6 then text "j" else text "jal") w (opcodeField w) (addrField w) := by
  have hregister : opcodeField w ≠ 0x00#6 := by rcases h with h | h <;> rw [h] <;> decide
  exact (if_neg hregister).trans (if_pos h)

theorem tableRecord_immediate {w : Word} (hregister : opcodeField w ≠ 0x00#6)
    (hjump : ¬(opcodeField w = 0x02#6 ∨ opcodeField w = 0x03#6)) :
    tableRecord w =
      .immediate ((opcodeTable.lookup (opcodeField w)).getD (synthNameI (opcodeField w))) w (opcodeField w)
        (rsField w) (rtField w) (immField w) := (if_neg hregister).trans (if_neg hjump)

/-- Settles O6: format by format, decoding takes the branch of R190's pseudocode, the row's record has the table's
name, and packing the word's own fields gives the word back (30 R115, 41 R190). -/
theorem decodeFollowsTheTables : Obligations.DecodeFollowsTheTables := by
  intro w
  rw [decodeRecord]
  by_cases hregister : opcodeField w = 0x00#6
  · rw [decodeWord_register hregister, recordOf_decodeRegister, registerRecord_fields hregister,
      tableRecord_register hregister]
  by_cases hj : opcodeField w = 0x02#6
  · rw [decodeWord_j hj, tableRecord_jump (.inl hj), if_pos hj, ← jumpRecord_fields, hj, recordOf]
  by_cases hjal : opcodeField w = 0x03#6
  · rw [decodeWord_jal hjal, tableRecord_jump (.inr hjal), if_neg hj, ← jumpRecord_fields, hjal, recordOf]
  · rw [decodeWord_immediate hregister hj hjal, recordOf_decodeImmediate, immediateRecord_fields,
      tableRecord_immediate hregister (not_or.2 ⟨hj, hjal⟩)]

end Sys2Proof.Machine

namespace Sys2Proof.Machine

/-! ### The synthesized names -/

/-- A hexadecimal numeral determines the digits it writes, as it is read back as their value. -/
theorem mod_eq_of_hexN_eq {u v n : Nat} (hn : n ≠ 0) (h : hexN u n = hexN v n) : u % 16 ^ n = v % 16 ^ n := by
  have hparse := congrArg parseNat h
  rwa [parseNat_hexN u hn, parseNat_hexN v hn, Option.some_inj] at hparse

/-- A 6-bit value has two hexadecimal digits, so its numeral determines it. -/
theorem hexN_two_injective {f g : BitVec 6} (h : hexN f.toNat 2 = hexN g.toNat 2) : f = g := by
  have hmod := mod_eq_of_hexN_eq (by decide) h
  have hf := f.isLt
  have hg := g.isLt
  exact BitVec.eq_of_toNat_eq (by omega)

theorem synthNameR_injective {f g : BitVec 6} (h : synthNameR f = synthNameR g) : f = g :=
  hexN_two_injective (List.append_cancel_left h)

theorem synthNameI_injective {f g : BitVec 6} (h : synthNameI f = synthNameI g) : f = g :=
  hexN_two_injective (List.append_cancel_left h)

theorem underscore_mem_synthNameR (f : BitVec 6) : ascii '_' ∈ synthNameR f :=
  List.mem_append_left _ (by decide)

theorem underscore_mem_synthNameI (o : BitVec 6) : ascii '_' ∈ synthNameI o :=
  List.mem_append_left _ (by decide)

theorem underscore_not_mem_named : ∀ m ∈ namedMnemonics, ascii '_' ∉ m := by decide

/-- The prefixes of the two kinds of synthesized name differ at place 8. -/
theorem synthNameR_ne_synthNameI (f o : BitVec 6) : synthNameR f ≠ synthNameI o := by
  intro h
  have hR : (synthNameR f)[8]? = some (ascii 'f') := List.getElem?_append_left (by decide)
  have hI : (synthNameI o)[8]? = some (ascii 'o') := List.getElem?_append_left (by decide)
  rw [h, hI] at hR
  exact absurd hR (by decide)

/-- Settles O9, by the reasons 41 R217 gives: the digits of a name read back as its value, every synthesized name and
no table name contains an underscore, and the two prefixes differ. -/
theorem synthesizedNamesAreDistinct : Obligations.SynthesizedNamesAreDistinct := by
  intro f g
  refine ⟨synthNameR_injective, synthNameI_injective, ?functNotNamed, ?opcodeNotNamed, synthNameR_ne_synthNameI f g⟩
  case functNotNamed => exact fun h => underscore_not_mem_named _ h (underscore_mem_synthNameR f)
  case opcodeNotNamed => exact fun h => underscore_not_mem_named _ h (underscore_mem_synthNameI f)

end Sys2Proof.Machine

namespace Sys2Proof.Machine

/-! ### A step that decodes -/

theorem step_of_inbox_eq {s : State} {e : HostEvent} {rest : List HostEvent} (h : s.inbox = e :: rest) :
    step s = handleEvent e (s.takeEvent rest) := by
  rw [step, stepOnce, h]

/-- A decode request is answered with the record of its word. -/
theorem step_decode {w : Word} {s : State} {rest : List HostEvent} (h : s.inbox = .request (.decode w) :: rest) :
    step s = .next ((s.takeEvent rest).respond (.decoded (decodeRecord w))) :=
  (step_of_inbox_eq h).trans (exec_eq (decodeWord w) _)

/-- Settles O11: every instruction's meaning is its report, so both steps answer with the record of the word, a
function of the word alone (41 R191). -/
theorem decodeDependsOnTheWordAlone : Obligations.DecodeDependsOnTheWordAlone := by
  intro w s s' rest rest' h h'
  exact ⟨decodeRecord w, _, _, step_decode h, step_decode h', rfl, rfl⟩

end Sys2Proof.Machine

namespace Sys2Proof.Machine

/-! ### The encoders' requests on natural operands -/

/-- No natural operand is negative, so the check of 42 R242 lets every list of them pass. -/
theorem firstNegative_natCast (operands : List (FieldName × Nat)) :
    firstNegative (operands.map fun p => (p.1, (p.2 : Int))) = none := by
  induction operands with
  | nil => rfl
  | cons p rest ih => exact (if_neg (Int.natCast_nonneg p.2).not_gt).trans ih

section Permissive
variable (opcode rs rt rd shamt funct immediate : Nat) (s : State)

theorem firstNegative_registerOperands :
    firstNegative [(.opcode, (opcode : Int)), (.rs, rs), (.rt, rt), (.rd, rd), (.shamt, shamt), (.funct, funct)] =
      none :=
  firstNegative_natCast [(.opcode, opcode), (.rs, rs), (.rt, rt), (.rd, rd), (.shamt, shamt), (.funct, funct)]

theorem firstNegative_immediateOperands :
    firstNegative [(.opcode, (opcode : Int)), (.rs, rs), (.rt, rt), (.immediate, immediate)] = none :=
  firstNegative_natCast [(.opcode, opcode), (.rs, rs), (.rt, rt), (.immediate, immediate)]

theorem perform_encodeRegisterFormat :
    perform (.encodeRegisterFormat opcode rs rt rd shamt funct) s =
      .next (s.respond (.instruction (encodeRegisterFormat opcode rs rt rd shamt funct))) := by
  rw [perform, performEncodeRegister, firstNegative_registerOperands]
  rfl

theorem perform_encodeImmediateFormat :
    perform (.encodeImmediateFormat opcode rs rt immediate) s =
      .next (s.respond (.instruction (encodeImmediateFormat opcode rs rt immediate))) := by
  rw [perform, performEncodeImmediate, firstNegative_immediateOperands]
  rfl

/-! ### The permissive encoders' words as sums of reduced fields -/

theorem encodeRegisterFormat_eq_ofNat :
    encodeRegisterFormat opcode rs rt rd shamt funct = BitVec.ofNat 32
      (opcode % 64 * 0x4000000 + rs % 32 * 0x200000 + rt % 32 * 0x10000 + rd % 32 * 0x800 + shamt % 32 * 0x40 +
        funct % 64) := by
  apply BitVec.eq_of_toNat_eq
  rw [encodeRegisterFormat_eq, packRegister_toNat]
  simp only [BitVec.toNat_ofNat]
  omega

theorem encodeImmediateFormat_eq_ofNat :
    encodeImmediateFormat opcode rs rt immediate = BitVec.ofNat 32
      (opcode % 64 * 0x4000000 + rs % 32 * 0x200000 + rt % 32 * 0x10000 + immediate % 65536) := by
  apply BitVec.eq_of_toNat_eq
  rw [encodeImmediateFormat_eq, packImmediate_toNat]
  simp only [BitVec.toNat_ofNat]
  omega

end Permissive

/-- Settles O15: natural operands pass the check for negative ones, and the word of the packed fields is their sum,
each reduced to its width, as no two fields overlap (42 R240, R241). -/
theorem encodersMaskTheirFields : Obligations.EncodersMaskTheirFields := by
  intro opcode rs rt rd shamt funct immediate s
  constructor
  · rw [perform_encodeRegisterFormat, encodeRegisterFormat_eq_ofNat, State.respond]
  · rw [perform_encodeImmediateFormat, encodeImmediateFormat_eq_ofNat, State.respond]

/-! ### The strict encoders' range check -/

/-- The answer of a strict encoder with these operands and this packed word: the error of the first operand out of
range, else the word (42 R244, R245). -/
def strictResponse (operands : List (FieldName × Nat)) (w : Word) : Response :=
  match firstOutOfRange operands with
  | some (f, x) => .error (.fieldOutOfRange f x)
  | none => .instruction w

theorem strictResponse_nil (w : Word) : strictResponse [] w = .instruction w := rfl

theorem strictResponse_cons (f : FieldName) (x : Nat) (rest : List (FieldName × Nat)) (w : Word) :
    strictResponse ((f, x) :: rest) w =
      if 2 ^ fieldWidth f ≤ x then .error (.fieldOutOfRange f x) else strictResponse rest w := by
  by_cases h : 2 ^ fieldWidth f ≤ x
  · rw [strictResponse, firstOutOfRange, if_pos h, if_pos h]
  · rw [strictResponse, firstOutOfRange, if_neg h, if_neg h, strictResponse]

section Strict
variable (opcode rs rt rd shamt funct immediate : Nat) (s : State)

theorem answer_encodeRegisterFormatStrict :
    answer ((encodeRegisterFormatStrict opcode rs rt rd shamt funct).map .instruction) s =
      .next (s.respond (strictResponse
        [(.opcode, opcode), (.rs, rs), (.rt, rt), (.rd, rd), (.shamt, shamt), (.funct, funct)]
        (encodeRegisterFormat opcode rs rt rd shamt funct))) := by
  unfold encodeRegisterFormatStrict strictResponse
  generalize firstOutOfRange _ = found
  cases found <;> rfl

theorem answer_encodeImmediateFormatStrict :
    answer ((encodeImmediateFormatStrict opcode rs rt immediate).map .instruction) s =
      .next (s.respond (strictResponse [(.opcode, opcode), (.rs, rs), (.rt, rt), (.immediate, immediate)]
        (encodeImmediateFormat opcode rs rt immediate))) := by
  unfold encodeImmediateFormatStrict strictResponse
  generalize firstOutOfRange _ = found
  cases found <;> rfl

theorem perform_encodeRegisterFormatStrict :
    perform (.encodeRegisterFormatStrict opcode rs rt rd shamt funct) s =
      .next (s.respond (strictResponse
        [(.opcode, opcode), (.rs, rs), (.rt, rt), (.rd, rd), (.shamt, shamt), (.funct, funct)]
        (encodeRegisterFormat opcode rs rt rd shamt funct))) := by
  rw [perform, performEncodeRegisterStrict, firstNegative_registerOperands]
  exact answer_encodeRegisterFormatStrict opcode rs rt rd shamt funct s

theorem perform_encodeImmediateFormatStrict :
    perform (.encodeImmediateFormatStrict opcode rs rt immediate) s =
      .next (s.respond (strictResponse [(.opcode, opcode), (.rs, rs), (.rt, rt), (.immediate, immediate)]
        (encodeImmediateFormat opcode rs rt immediate))) := by
  rw [perform, performEncodeImmediateStrict, firstNegative_immediateOperands]
  exact answer_encodeImmediateFormatStrict opcode rs rt immediate s

end Strict

/-- Settles O16: natural operands pass the check for negative ones, and the range check looks at one operand after the
other, in operand order, against 2 to the power of its width (42 R244, R245). -/
theorem strictEncodersRaiseOrAgree : Obligations.StrictEncodersRaiseOrAgree := by
  intro opcode rs rt rd shamt funct immediate s
  constructor
  · rw [perform_encodeRegisterFormatStrict]
    simp only [strictResponse_cons, strictResponse_nil]
    rfl
  · rw [perform_encodeImmediateFormatStrict]
    simp only [strictResponse_cons, strictResponse_nil]
    rfl

end Sys2Proof.Machine

namespace Sys2Proof.Machine

/-! ### The classifier -/

/-- A character has a place in the base-32 alphabet when its code is a digit's or one of the letters A to V. -/
theorem isBase32Digit_eq_isB32Char (c : AsciiChar) : isBase32Digit c = isB32Char c := by
  rw [isBase32Digit, base32Value_eq]
  cases isB32Char c <;> rfl

/-- Settles O28: the classifier's three tests are the rule's, and its alphabet is the rule's (42 R252, 40 R160). -/
theorem classifierFollowsTheRule : Obligations.ClassifierFollowsTheRule := by
  intro t
  simp only [looksLikeInstruction, Bool.and_eq_true, decide_eq_true_eq, List.all_eq_true, isBase32Digit_eq_isB32Char,
    Config.lliMaxLen, and_assoc]

end Sys2Proof.Machine

namespace Sys2Proof.Machine

/-! ### A base-32 instruction text -/

theorem base32Word_of_lt {t : Text} {v : Word128} (h : fromBase32 t = .ok v) (hv : v.toNat < 2 ^ 32) :
    base32Word t = .ok (BitVec.ofNat 32 v.toNat) := by
  rw [base32Word, h, BitVec.ofNat_toNat]
  exact if_pos hv

theorem base32Word_of_le {t : Text} {v : Word128} (h : fromBase32 t = .ok v) (hv : 2 ^ 32 ≤ v.toNat) :
    base32Word t = .error (.invalidDigit t) := by
  rw [base32Word, h]
  exact if_neg hv.not_gt

theorem base32Word_of_error {t : Text} {e : OpError} (h : fromBase32 t = .error e) :
    base32Word t = .error (.invalidDigit t) := by
  rw [base32Word, h, fromBase32_error h]

theorem perform_decodeInstructionText_of_ok {t : Text} {w : Word} (h : base32Word t = .ok w) (s : State) :
    perform (.decodeInstructionText t) s = .next { s with response := some (.decoded (decodeRecord w)) } :=
  answer_map_ok (by rw [decodeInstructionText, h]) .decoded s

theorem perform_decodeInstructionText_of_error {t : Text} {e : OpError} (h : base32Word t = .error e) (s : State) :
    perform (.decodeInstructionText t) s = .next { s with response := some (.error e) } :=
  answer_map_error (by rw [decodeInstructionText, h]) .decoded s

/-- Settles O19: the text is read as a 32-bit word, which is decoded, or the reading's error is raised (42 R251). -/
theorem instructionTextDecodes : Obligations.InstructionTextDecodes := by
  intro t s
  refine ⟨?fits, ?tooLarge, ?notNumeral⟩
  case fits => exact fun v h hv => perform_decodeInstructionText_of_ok (base32Word_of_lt h hv) s
  case tooLarge => exact fun v h hv => perform_decodeInstructionText_of_error (base32Word_of_le h hv) s
  case notNumeral => exact fun e h => perform_decodeInstructionText_of_error (base32Word_of_error h) s

end Sys2Proof.Machine

namespace Sys2Proof.Machine

/-! ### The checks of the two paths, passed -/

theorem enforceWord_none_iff (p : Params) (a : Addr) :
    enforceWord p a = none ↔ a.toNat % 16 = 0 ∧ (a.toNat + 16 ≤ p.capacity ∨ 0xFFFF0000 ≤ a.toNat) := by
  rw [enforceWord, enforce_none, boundsOK_iff, alignOK_iff, and_comm, or_comm]

theorem enforceInstr_none_iff (p : Params) (a : Addr) :
    enforceInstr p a = none ↔ a.toNat % 4 = 0 ∧ (a.toNat + 4 ≤ p.capacity ∨ 0xFFFF0000 ≤ a.toNat) := by
  rw [enforceInstr, enforce_none, boundsOK_iff, alignOK_iff, and_comm, or_comm]

/-! ### A word load, by the entry at its key (43 R270, R272) -/

/-- A load that is checked, and passes, answers by the entry at its key. -/
theorem loadWord_of_enforceWord_none {a : Addr} {s : State} (hport : a ≠ s.params.inputPort)
    (hcheck : enforceWord s.params a = none) : loadWord a s = loadEntry a (s.store.read a.toNat) s := by
  have hnotInput : isInputPort s.params a = false := decide_eq_false hport
  rw [loadWord, hnotInput, hcheck]
  rfl

theorem loadEntry_none (a : Addr) (s : State) :
    loadEntry a none s = .next { s with response := some (.word 0) } := rfl

theorem loadEntry_of_instruction {t : Text} (h : looksLikeInstruction t = true) (a : Addr) (s : State) :
    loadEntry a (some t) s = .refused (.kindMismatch a) :=
  if_pos h

theorem loadEntry_of_not_instruction {t : Text} (h : looksLikeInstruction t = false) (a : Addr) (s : State) :
    loadEntry a (some t) s = answer ((parse t).map .word) s :=
  if_neg (Bool.not_eq_true _ ▸ h)

/-- Settles O33: a load that passes its check answers by its entry: none, an instruction-shaped text, or another text,
whose `parse` result it answers with (43 R270, R272). -/
theorem loadWordByEntry : Obligations.LoadWordByEntry := by
  intro a s hport halign hbounds
  rw [loadWord_of_enforceWord_none hport ((enforceWord_none_iff _ a).2 ⟨halign, hbounds⟩)]
  refine ⟨?absent, fun t hread => ?present⟩
  case absent =>
    intro hread
    rw [hread, loadEntry_none]
  case present =>
    rw [hread]
    refine ⟨fun hkind => loadEntry_of_instruction hkind a s, fun hkind => ?wordText⟩
    rw [loadEntry_of_not_instruction hkind]
    exact ⟨fun v hparse => answer_map_ok hparse .word s,
      fun e hparse => parse_error hparse ▸ answer_map_error hparse .word s⟩

/-! ### A fetch, by the entry at its key (43 R280, R281) -/

theorem fetchChecked_of_absent {a : Addr} {s : State} (hcheck : enforceInstr s.params a = none)
    (hread : s.store.read a.toNat = none) :
    fetchChecked a s = .next { s with response := some (.instruction 0) } := by
  rw [fetchChecked, hcheck, State.readEntry_eq, hread]
  rfl

/-- A fetch of a present key that passes its check answers with the key's text read as a word. -/
theorem fetchChecked_of_present {a : Addr} {s : State} {t : Text} (hcheck : enforceInstr s.params a = none)
    (hread : s.store.read a.toNat = some t) :
    fetchChecked a s = answer ((base32Word t).map .instruction) s := by
  rw [fetchChecked, hcheck, State.readEntry_eq, hread]

theorem recordMnemonic_decodeRecord_zero : recordMnemonic (decodeRecord 0) = text "unknown_funct_0x00" := by decide

/-- Settles O37: a fetch that goes to the store and passes its check answers 0 for an absent key, and for a present
one its text read as a 32-bit word, or the reading's one error (43 R280, R281, R285). -/
theorem fetchInstructionByEntry : Obligations.FetchInstructionByEntry := by
  refine ⟨fun a s hstore halign hbounds => ?fetch, recordMnemonic_decodeRecord_zero⟩
  have hcheck : enforceInstr s.params a = none := (enforceInstr_none_iff _ a).2 ⟨halign, hbounds⟩
  rw [fetchInstruction_usesStore hstore]
  refine ⟨fetchChecked_of_absent hcheck, fun t hread => ?present⟩
  rw [fetchChecked_of_present hcheck hread]
  refine ⟨?fits, ?tooLarge, ?notNumeral⟩
  case fits => exact fun v h hv => answer_map_ok (base32Word_of_lt h hv) .instruction s
  case tooLarge => exact fun v h hv => answer_map_error (base32Word_of_le h hv) .instruction s
  case notNumeral => exact fun e h => answer_map_error (base32Word_of_error h) .instruction s

end Sys2Proof.Machine

namespace Sys2Proof.Machine

/-! ### The present keys of a store -/

theorem Memory.isSome_read_iff_mem_keys {m : Memory} (hm : m.wf) (a : Nat) :
    (m.read a).isSome = true ↔ a ∈ m.map Prod.fst := by
  rw [Option.isSome_iff_exists, List.mem_map]
  constructor
  · rintro ⟨t, hread⟩
    exact ⟨(a, t), Memory.mem_of_read hread, rfl⟩
  · rintro ⟨⟨a, t⟩, hmem, rfl⟩
    exact ⟨t, Memory.read_of_mem hm hmem⟩

theorem Memory.keys_nodup {m : Memory} (hm : m.wf) : (m.map Prod.fst).Nodup :=
  List.pairwise_map.2 (hm.1.imp Nat.ne_of_lt)

theorem Memory.presentKeys_eq_keys {m : Memory} (hm : m.wf) :
    (Finset.range Config.addrSpace).filter (fun a => (m.read a).isSome = true) = (m.map Prod.fst).toFinset := by
  ext a
  rw [Finset.mem_filter, Finset.mem_range, List.mem_toFinset, Memory.isSome_read_iff_mem_keys hm,
    and_iff_right_iff_imp, List.mem_map]
  rintro ⟨p, hp, rfl⟩
  exact hm.2 p hp

/-- In canonical form each listed pair is a present key of its own. -/
theorem Memory.count_eq_card_presentKeys {m : Memory} (hm : m.wf) :
    m.count = ((Finset.range Config.addrSpace).filter fun a => (m.read a).isSome = true).card := by
  rw [Memory.presentKeys_eq_keys hm, List.toFinset_card_of_nodup (Memory.keys_nodup hm), List.length_map, Memory.count]

/-- Settles O44: `info` counts the listed pairs, which on a canonical store are the present keys (43 R300). -/
theorem infoCountsThePresentKeys : Obligations.InfoCountsThePresentKeys :=
  fun s hwf => ⟨s.store.count, rfl, Memory.count_eq_card_presentKeys hwf⟩

end Sys2Proof.Machine

namespace Sys2Proof.Machine

/-! ### A range query (43 R291, R293) -/

/-- The strides of a query whose key is present, ascending. -/
def presentStrides (m : Memory) (start : Addr) (length : Nat) : List Nat :=
  (List.range (strideCount start length)).filter fun k => (m.read (start.toNat + 16 * k)).isSome

theorem presentStrides_pairwise (m : Memory) (start : Addr) (length : Nat) :
    (presentStrides m start length).Pairwise (· < ·) :=
  List.pairwise_lt_range.filter _

theorem presentStrides_length_le (m : Memory) (start : Addr) (length : Nat) :
    (presentStrides m start length).length ≤ (length + 15) / 16 :=
  calc (presentStrides m start length).length
    _ ≤ (List.range (strideCount start length)).length := List.length_filter_le _ _
    _ = strideCount start length := List.length_range
    _ ≤ (length + 15) / 16 := min_le_left _ _

theorem mem_presentStrides (m : Memory) (start : Addr) (length k : Nat) :
    k ∈ presentStrides m start length ↔ 16 * k < length ∧ start.toNat + 16 * k < 2 ^ 32 ∧
      (m.read (start.toNat + 16 * k)).isSome = true := by
  rw [presentStrides, List.mem_filter, List.mem_range, lt_strideCount, and_assoc]
  rfl

theorem queryEntries_eq_map (m : Memory) (start : Addr) (length : Nat) (fmt : Format) :
    queryEntries m start length fmt = (presentStrides m start length).map fun k =>
      entryOf (start.toNat + 16 * k) ((m.read (start.toNat + 16 * k)).getD []) fmt := by
  rw [queryEntries, presentStrides, ← List.filterMap_eq_map, List.filterMap_filter]
  congr 1
  funext k
  simp only [Config.queryStride, Function.comp]
  cases m.read (start.toNat + 16 * k) <;> rfl

/-- Settles O41: the strides whose key is present are the ones a query answers (43 R291, R293). -/
theorem queryReportsThePresentStrides : Obligations.QueryReportsThePresentStrides := by
  intro start length fmt s
  refine ⟨presentStrides s.store start length, presentStrides_pairwise _ _ _, presentStrides_length_le _ _ _,
    mem_presentStrides _ _ _, ?_⟩
  rw [← queryEntries_eq_map]
  rfl

end Sys2Proof.Machine

namespace Sys2Proof.Machine

/-! ### An instruction-shaped text has a base-32 value (42 R252, 40 R163) -/

/-- Reading `t` onto at most `k` digits gives a number of at most `k` digits and the length of `t` more. -/
theorem readDigits_lt {base : Nat} {value : AsciiChar → Option Nat}
    (hvalue : ∀ c d, value c = some d → d < base) {t : Text} {acc v k : Nat} (hacc : acc < base ^ k)
    (h : readDigits base value acc t = some v) : v < base ^ (k + t.length) := by
  induction t generalizing acc k with
  | nil =>
    cases h
    exact hacc
  | cons c t ih =>
    rw [readDigits] at h
    cases hc : value c with
    | none =>
      rw [hc] at h
      cases h
    | some d =>
      rw [hc] at h
      have hd := hvalue c d hc
      have hstep : acc * base + d < base ^ (k + 1) :=
        calc acc * base + d
          _ < acc * base + base := Nat.add_lt_add_left hd _
          _ = (acc + 1) * base := (Nat.succ_mul acc base).symm
          _ ≤ base ^ k * base := Nat.mul_le_mul_right base hacc
          _ = base ^ (k + 1) := (Nat.pow_succ base k).symm
      have hrest : v < base ^ (k + 1 + t.length) := ih hstep h
      rwa [List.length_cons, Nat.add_comm t.length, ← Nat.add_assoc]

/-- An instruction-shaped text is a base-32 numeral of at most 40 bits. -/
theorem fromBase32_of_looksLikeInstruction {t : Text} (h : looksLikeInstruction t = true) :
    ∃ v, fromBase32 t = .ok v := by
  simp only [looksLikeInstruction, Config.lliMaxLen, Bool.and_eq_true, decide_eq_true_eq, List.all_eq_true] at h
  obtain ⟨⟨hpos, hlen⟩, hdigits⟩ := h
  obtain ⟨n, hn⟩ := Option.isSome_iff_exists.1 (readDigits_isSome (base := 32) 0 hdigits)
  have hread : readNumeral 32 base32Value t = some n :=
    (readNumeral_of_ne_nil (List.ne_nil_of_length_pos hpos)).trans hn
  have hbound : n < 2 ^ 128 :=
    calc n
      _ < 32 ^ (0 + t.length) := readDigits_lt (fun c d => base32Value_lt) (by decide) hn
      _ ≤ 32 ^ 8 := Nat.pow_le_pow_right (by decide) (by omega)
      _ ≤ 2 ^ 128 := by decide
  refine ⟨BitVec.ofNat 128 n, ?_⟩
  rw [fromBase32, hread]
  exact if_pos hbound

end Sys2Proof.Machine

namespace Sys2Proof.Machine

/-! ### The fields of a query's entry (43 R290, R292) -/

theorem entryOf_of_instruction {t : Text} (h : looksLikeInstruction t = true) (a : Nat) (fmt : Format) :
    entryOf a t fmt = instructionEntry a t fmt :=
  if_pos h

theorem entryOf_of_not_instruction {t : Text} (h : looksLikeInstruction t = false) (a : Nat) (fmt : Format) :
    entryOf a t fmt = wordEntry a t fmt :=
  if_neg (Bool.not_eq_true _ ▸ h)

theorem instructionEntry_header (a : Nat) (t : Text) (fmt : Format) :
    (instructionEntry a t fmt).address = hexN a 8 ∧ (instructionEntry a t fmt).format = fmt ∧
      (instructionEntry a t fmt).isInstruction = true := by
  cases h : base32Word t <;> rw [instructionEntry, h] <;> exact ⟨rfl, rfl, rfl⟩

theorem wordEntry_header (a : Nat) (t : Text) (fmt : Format) :
    (wordEntry a t fmt).address = hexN a 8 ∧ (wordEntry a t fmt).format = fmt ∧
      (wordEntry a t fmt).isInstruction = false := by
  cases h : parse t <;> rw [wordEntry, h] <;> exact ⟨rfl, rfl, rfl⟩

/-- The fields that every entry has, valid or not. -/
theorem entryOf_header (a : Nat) (t : Text) (fmt : Format) :
    (entryOf a t fmt).address = hexN a 8 ∧ (entryOf a t fmt).format = fmt ∧
      (entryOf a t fmt).isInstruction = looksLikeInstruction t := by
  cases h : looksLikeInstruction t with
  | true => exact entryOf_of_instruction h a fmt ▸ instructionEntry_header a t fmt
  | false => exact entryOf_of_not_instruction h a fmt ▸ wordEntry_header a t fmt

theorem setWidth_ofNat_toNat {v : Word128} (h : v.toNat < 2 ^ 32) : (BitVec.ofNat 32 v.toNat).setWidth 128 = v := by
  apply BitVec.eq_of_toNat_eq
  rw [BitVec.toNat_setWidth, BitVec.toNat_ofNat, Nat.mod_eq_of_lt h, Nat.mod_eq_of_lt v.isLt]

theorem instructionEntry_of_lt {t : Text} {v : Word128} (h : fromBase32 t = .ok v) (hv : v.toNat < 2 ^ 32) (a : Nat)
    (fmt : Format) : instructionEntry a t fmt =
      { address := hexN a 8, format := fmt, valid := true, error := none, value := some (render v fmt)
        isInstruction := true, instructionWord := some (hexN v.toNat 8)
        decoded := some (decodeRecord (BitVec.ofNat 32 v.toNat)) } := by
  rw [instructionEntry, base32Word_of_lt h hv]
  simp only [setWidth_ofNat_toNat hv, BitVec.toNat_ofNat, Nat.mod_eq_of_lt hv]

theorem instructionEntry_of_le {t : Text} {v : Word128} (h : fromBase32 t = .ok v) (hv : 2 ^ 32 ≤ v.toNat) (a : Nat)
    (fmt : Format) : instructionEntry a t fmt =
      { address := hexN a 8, format := fmt, valid := false, error := some .invalidDigit, value := none
        isInstruction := true, instructionWord := none, decoded := none } := by
  rw [instructionEntry, base32Word_of_le h hv]

theorem wordEntry_of_ok {t : Text} {v : Word128} (h : parse t = .ok v) (a : Nat) (fmt : Format) :
    wordEntry a t fmt =
      { address := hexN a 8, format := fmt, valid := true, error := none, value := some (render v fmt)
        isInstruction := false, instructionWord := none, decoded := none } := by
  rw [wordEntry, h]

theorem wordEntry_of_error {t : Text} {e : OpError} (h : parse t = .error e) (a : Nat) (fmt : Format) :
    wordEntry a t fmt =
      { address := hexN a 8, format := fmt, valid := false, error := some .invalidNumeral, value := none
        isInstruction := false, instructionWord := none, decoded := none } := by
  rw [wordEntry, h]

/-- An entry that is no instruction's never carries an instruction's two fields. -/
theorem wordEntry_no_instruction (a : Nat) (t : Text) (fmt : Format) :
    (wordEntry a t fmt).instructionWord = none ∧ (wordEntry a t fmt).decoded = none := by
  cases h : parse t with
  | ok v => rw [wordEntry_of_ok h]; exact ⟨rfl, rfl⟩
  | error e => rw [wordEntry_of_error h]; exact ⟨rfl, rfl⟩

/-- Settles O42: the classifier chooses between two entries. An instruction-shaped text always has a base-32 value, and
whether it fits 32 bits decides its entry; whether `parse` gives a value decides any other (43 R290, R292). -/
theorem entryFieldsFollowTheText : Obligations.EntryFieldsFollowTheText := by
  intro a t fmt
  obtain ⟨haddress, hformat, hkind⟩ := entryOf_header a t fmt
  refine ⟨haddress, hformat, hkind, fun h => ?instruction, fun h => ?word⟩
  case instruction =>
    obtain ⟨v, hvalue⟩ := fromBase32_of_looksLikeInstruction h
    rw [entryOf_of_instruction h]
    refine ⟨v, hvalue, fun hv => ?fits, fun hv => ?tooLarge⟩
    case fits =>
      rw [instructionEntry_of_lt hvalue hv]
      exact ⟨rfl, rfl, rfl, rfl, rfl⟩
    case tooLarge =>
      rw [instructionEntry_of_le hvalue hv]
      exact ⟨rfl, rfl, rfl, rfl, rfl⟩
  case word =>
    rw [entryOf_of_not_instruction h]
    obtain ⟨hword, hdecoded⟩ := wordEntry_no_instruction a t fmt
    refine ⟨hword, hdecoded, fun v hparse => ?valid, fun e hparse => ?invalid⟩
    case valid =>
      rw [wordEntry_of_ok hparse]
      exact ⟨rfl, rfl, rfl⟩
    case invalid =>
      rw [wordEntry_of_error hparse]
      exact ⟨rfl, rfl, rfl⟩

end Sys2Proof.Machine

namespace Sys2Proof.Machine

/-! ### An error leaves everything but the response (60 R326) -/

/-- Of a request's effects only the bare response can answer an error: a draw answers the value drawn, and a write or an
emission answers `done`. -/
theorem Effect.eq_respond_of_error {s t : State} {r : Request} {e : OpError} (h : Effect s r t)
    (herror : t.response = some (.error e)) : t = s.respond (.error e) := by
  cases h with
  | responds _ x =>
    have hx : x = .error e := Option.some.inj herror
    rw [hx]
  | drawsWord | drawsInstruction | emitsWord | emitsInstruction | writesWord | writesInstruction =>
    simp at herror

/-- Settles O47: a request that answers a state has one of the listed effects, and an effect with an error is the
response alone (60 R326). -/
theorem failedOperationsChangeNothing : Obligations.FailedOperationsChangeNothing :=
  fun _ _ _ _ hperform herror => (perform_next hperform).eq_respond_of_error herror

end Sys2Proof.Machine

namespace Sys2Proof

/-! ### Decoding and encoding are inverse (30 R115, 41 R192) -/

theorem decodeWord_packRegister (rs rt rd shamt : RegIndex) (f : BitVec 6) :
    decodeWord (packRegister 0x00#6 rs rt rd shamt f) = decodeRegister rs rt rd shamt f := by
  rw [decodeWord_register (opcodeField_packRegister ..), rsField_packRegister, rtField_packRegister,
    rdField_packRegister, shamtField_packRegister, functField_packRegister]

theorem decodeWord_packImmediate {op : BitVec 6} (hregister : op ≠ 0x00#6) (hj : op ≠ 0x02#6) (hjal : op ≠ 0x03#6)
    (rs rt : RegIndex) (imm : BitVec 16) :
    decodeWord (packImmediate op rs rt imm) = decodeImmediate op rs rt imm := by
  rw [decodeWord_immediate, opcodeField_packImmediate, rsField_packImmediate, rtField_packImmediate,
    immField_packImmediate]
  all_goals rwa [opcodeField_packImmediate]

theorem decodeWord_packJump_j (addr : BitVec 26) : decodeWord (packJump 0x02#6 addr) = .j addr := by
  rw [decodeWord_j (opcodeField_packJump ..), addrField_packJump]

theorem decodeWord_packJump_jal (addr : BitVec 26) : decodeWord (packJump 0x03#6 addr) = .jal addr := by
  rw [decodeWord_jal (opcodeField_packJump ..), addrField_packJump]

/-- An opcode in no named row is the immediate format's (30 R111). -/
theorem immediate_of_not_mem_namedOpcodes {op : BitVec 6} (h : op ∉ namedOpcodes) :
    op ≠ 0x00#6 ∧ op ≠ 0x02#6 ∧ op ≠ 0x03#6 :=
  ⟨fun h0 => h (h0 ▸ by decide), fun hj => h (hj ▸ by decide), fun hjal => h (hjal ▸ by decide)⟩

/-- Settles O7: the fields of a packing are the packed ones, and they select the instruction's own row; for a catch-all
row that is so because well-formedness keeps the named values out (30 R115, 41 R192). -/
theorem decodeOfEncode : Obligations.DecodeOfEncode := by
  intro i hwf
  cases i with
  | add rs rt rd shamt | sub rs rt rd shamt | mult rs rt rd shamt | multu rs rt rd shamt | div rs rt rd shamt
  | divu rs rt rd shamt | mfhi rs rt rd shamt | mflo rs rt rd shamt | lis rs rt rd shamt | jr rs rt rd shamt
  | jalr rs rt rd shamt | slt rs rt rd shamt | sltu rs rt rd shamt =>
    exact decodeWord_packRegister rs rt rd shamt _
  | lw rs rt imm | sw rs rt imm | beq rs rt imm | bne rs rt imm =>
    exact decodeWord_packImmediate (by decide) (by decide) (by decide) rs rt imm
  | j addr => exact decodeWord_packJump_j addr
  | jal addr => exact decodeWord_packJump_jal addr
  | unknownR rs rt rd shamt funct =>
    have hfunct : funct ∉ namedFuncts := by simpa [Instr.wellFormed] using hwf
    exact (decodeWord_packRegister rs rt rd shamt funct).trans (decodeRegister_other rs rt rd shamt hfunct)
  | unknownI opcode rs rt imm =>
    have hopcode : opcode ∉ namedOpcodes := by simpa [Instr.wellFormed] using hwf
    obtain ⟨hregister, hj, hjal⟩ := immediate_of_not_mem_namedOpcodes hopcode
    exact (decodeWord_packImmediate hregister hj hjal rs rt imm).trans (decodeImmediate_other rs rt imm hopcode)

/-- Settles O8: format by format, the row a word selects is well formed and packs the word's own fields, which cover
the word (30 R115, R128). -/
theorem encodeOfDecode : Obligations.EncodeOfDecode := by
  intro w
  by_cases hregister : opcodeField w = 0x00#6
  · rw [decodeWord_register hregister, encode_decodeRegister, ← hregister, packRegister_fields]
    exact ⟨wellFormed_decodeRegister _ _ _ _ _, rfl⟩
  by_cases hj : opcodeField w = 0x02#6
  · rw [decodeWord_j hj, encode, ← hj, packJump_fields]
    exact ⟨rfl, rfl⟩
  by_cases hjal : opcodeField w = 0x03#6
  · rw [decodeWord_jal hjal, encode, ← hjal, packJump_fields]
    exact ⟨rfl, rfl⟩
  · rw [decodeWord_immediate hregister hj hjal, encode_decodeImmediate, packImmediate_fields]
    exact ⟨wellFormed_decodeImmediate _ _ _ hregister hj hjal, rfl⟩

end Sys2Proof

namespace Sys2Proof.Machine

/-! ### What a step does to each field of the state

One inversion for each field: the field is as before, or the oldest event is one of those that change it. -/

/-- A request changes the store by a word store or an instruction store, at the key of its address alone. -/
theorem Effect.store_eq {s t : State} {r : Request} (h : Effect s r t) :
    t.store = s.store ∨ (∃ a v, r = .storeWord a v ∧ t.store = s.store.write a.toNat (toHex v)) ∨
      ∃ a w, r = .storeInstruction a w ∧ t.store = s.store.write a.toNat (wordToBase32 w) := by
  cases h with
  | responds | drawsWord | drawsInstruction | emitsWord | emitsInstruction => exact .inl rfl
  | writesWord a v => exact .inr (.inl ⟨a, v, rfl, rfl⟩)
  | writesInstruction a w => exact .inr (.inr ⟨a, w, rfl, rfl⟩)

/-- A request changes the output log by a store at the output port, which appends one value. -/
theorem Effect.out_eq {s t : State} {r : Request} (h : Effect s r t) :
    t.out = s.out ∨ (∃ v, r = .storeWord s.params.outputPort v ∧ t.out = s.out ++ [v]) ∨
      ∃ w : Word, s.params.instrPortMode = .special ∧ r = .storeInstruction s.params.outputPort w ∧
        t.out = s.out ++ [w.setWidth 128] := by
  cases h with
  | responds | drawsWord | drawsInstruction | writesWord | writesInstruction => exact .inl rfl
  | emitsWord v => exact .inr (.inl ⟨v, rfl, rfl⟩)
  | emitsInstruction w hmode => exact .inr (.inr ⟨w, hmode, rfl, rfl⟩)

/-- A request consumes a draw by a load at the input port, or by a fetch there in mode `special`. -/
theorem Effect.draws_eq {s t : State} {r : Request} (h : Effect s r t) :
    t.draws = s.draws ∨ t.draws = s.draws + 1 ∧ (r = .loadWord s.params.inputPort ∨
      s.params.instrPortMode = .special ∧ r = .fetchInstruction s.params.inputPort) := by
  cases h with
  | responds | emitsWord | emitsInstruction | writesWord | writesInstruction => exact .inl rfl
  | drawsWord => exact .inr ⟨rfl, .inl rfl⟩
  | drawsInstruction hmode => exact .inr ⟨rfl, .inr ⟨hmode, rfl⟩⟩

theorem Effect.params_inbox_eq {s t : State} {r : Request} (h : Effect s r t) :
    t.params = s.params ∧ t.inbox = s.inbox := by
  cases h <;> exact ⟨rfl, rfl⟩

/-- What a step can do to the store, by its oldest event. -/
inductive StoreChange (s : State) : Memory → Prop where
  | unchanged : StoreChange s s.store
  | word (a : Addr) (v : Word128) (h : s.inbox.head? = some (.request (.storeWord a v))) :
    StoreChange s (s.store.write a.toNat (toHex v))
  | instruction (a : Addr) (w : Word) (h : s.inbox.head? = some (.request (.storeInstruction a w))) :
    StoreChange s (s.store.write a.toNat (wordToBase32 w))
  | replaced (es : List (Addr × Text)) (h : s.inbox.head? = some (.replaceStore es)) :
    StoreChange s (Memory.ofEntries es)

theorem step_store {s t : State} (h : step s = .next t) : StoreChange s t.store := by
  obtain ⟨-, rfl⟩ | ⟨r, rest, hinbox, heffect⟩ | ⟨es, rest, hinbox, rfl⟩ := step_next h
  · exact .unchanged
  · have hhead : s.inbox.head? = some (.request r) := by rw [hinbox, List.head?_cons]
    obtain hstore | ⟨a, v, rfl, hstore⟩ | ⟨a, w, rfl, hstore⟩ := heffect.store_eq
    · exact hstore ▸ .unchanged
    · exact hstore ▸ .word a v hhead
    · exact hstore ▸ .instruction a w hhead
  · exact .replaced es (by rw [hinbox, List.head?_cons])

/-- An event of the block's own is no replacement of the store. -/
theorem head?_ne_replaceStore {s : State} (hblock : ∀ e, s.inbox.head? = some e → blockEvent e = true)
    (es : List (Addr × Text)) : s.inbox.head? ≠ some (.replaceStore es) :=
  fun h => Bool.false_ne_true (hblock _ h)

/-- A write at an address keeps the canonical form, and a replacement sets a store in that form. -/
theorem StoreChange.wf {s : State} {m : Memory} (h : StoreChange s m) (hwf : s.store.wf) : m.wf := by
  cases h with
  | unchanged => exact hwf
  | word a | instruction a => exact Memory.write_wf _ hwf a.isLt
  | replaced es => exact Memory.ofEntries_wf es

/-- Settles O52: whatever a step does to the store keeps the canonical form (10 R44, 20 R70). -/
theorem stepKeepsTheStoreCanonical : Obligations.StepKeepsTheStoreCanonical :=
  fun _ _ hwf hstep => (step_store hstep).wf hwf

/-- A write of a text of one of the two kinds keeps every entry one of them. -/
theorem blockWritten_write {m : Memory} {t : Text} (hm : blockWritten m) (ht : isWordEntry t ∨ isInstructionEntry t)
    (a : Nat) : blockWritten (m.write a t) := by
  intro p hp
  obtain rfl | hmem := Memory.mem_write hp
  · exact ht
  · exact hm p hmem

/-- The block's own events leave the store or write a text of one of the two kinds. -/
theorem StoreChange.blockWritten {s : State} {m : Memory} (h : StoreChange s m)
    (hblock : ∀ e, s.inbox.head? = some e → blockEvent e = true) (hwritten : blockWritten s.store) :
    blockWritten m := by
  cases h with
  | unchanged => exact hwritten
  | word a v => exact blockWritten_write hwritten (.inl ⟨v, rfl⟩) a.toNat
  | instruction a w => exact blockWritten_write hwritten (.inr ⟨w, rfl⟩) a.toNat
  | replaced es hes => exact absurd hes (head?_ne_replaceStore hblock es)

/-- Settles O53: whatever a step on the block's own event does to the store, it writes only the two kinds (10 R50). -/
theorem stepKeepsEntriesBlockWritten : Obligations.StepKeepsEntriesBlockWritten :=
  fun _ _ hblock hwritten hstep => (step_store hstep).blockWritten hblock hwritten

/-- A write makes no key absent, and only a replacement could. -/
theorem StoreChange.read_isSome {s : State} {m : Memory} (h : StoreChange s m)
    (hblock : ∀ e, s.inbox.head? = some e → blockEvent e = true) {a : Nat} (hpresent : (s.store.read a).isSome = true) :
    (m.read a).isSome = true := by
  cases h with
  | unchanged => exact hpresent
  | word b | instruction b => exact Memory.read_isSome_write s.store b.toNat a _ hpresent
  | replaced es hes => exact absurd hes (head?_ne_replaceStore hblock es)

/-- Settles O55: no step on the block's own event removes a key (70 R363). -/
theorem keysNeverDisappear : Obligations.KeysNeverDisappear :=
  fun _ _ _ hblock hstep hpresent => (step_store hstep).read_isSome hblock hpresent

/-- A key that a write changes is the written one, and it holds the written text. -/
theorem Memory.read_write_of_ne {m : Memory} {a b : Nat} {t : Text} (h : (m.write b t).read a ≠ m.read a) :
    b = a ∧ (m.write b t).read a = some t := by
  have hkey : a = b := by
    by_contra hother
    exact h (Memory.read_write_other m t hother)
  subst hkey
  exact ⟨rfl, Memory.read_write_same m a t⟩

/-- Settles O56: a step changes the store by one write or by a replacement, and a write changes its own key alone
(20 R91, 10 R47). -/
theorem keysChangeOnlyByTheirStore : Obligations.KeysChangeOnlyByTheirStore := by
  intro s t a hstep hread
  have hchange := step_store hstep
  generalize t.store = m at hchange hread ⊢
  cases hchange with
  | unchanged => exact absurd rfl hread
  | word b v hhead =>
    obtain ⟨hkey, htext⟩ := Memory.read_write_of_ne hread
    exact .inl ⟨b, hkey, .inl ⟨v, hhead, htext⟩⟩
  | instruction b w hhead =>
    obtain ⟨hkey, htext⟩ := Memory.read_write_of_ne hread
    exact .inl ⟨b, hkey, .inr ⟨w, hhead, htext⟩⟩
  | replaced es hhead => exact .inr ⟨es, hhead⟩

/-- Settles O54: a request emits only at the output port, and neither waiting nor a replacement emits (10 R46). -/
theorem outputLogOnlyGrows : Obligations.OutputLogOnlyGrows := by
  intro s t hstep
  obtain ⟨-, rfl⟩ | ⟨r, rest, hinbox, heffect⟩ | ⟨es, rest, -, rfl⟩ := step_next hstep
  · exact .inl rfl
  · have hhead : s.inbox.head? = some (.request r) := by rw [hinbox, List.head?_cons]
    obtain hout | ⟨v, rfl, hout⟩ | ⟨w, hmode, rfl, hout⟩ := heffect.out_eq
    · exact .inl hout
    · exact .inr ⟨v, hout, .inl hhead⟩
    · exact .inr ⟨w.setWidth 128, hout, .inr ⟨hmode, w, (BitVec.ofNat_toNat 128 w).symm, hhead⟩⟩
  · exact .inl rfl

/-- Settles O58: a request draws only at the input port, and neither waiting nor a replacement draws (10 R45, R52). -/
theorem drawsOnlyAtTheInputPort : Obligations.DrawsOnlyAtTheInputPort := by
  intro s t hstep
  obtain ⟨-, rfl⟩ | ⟨r, rest, hinbox, heffect⟩ | ⟨es, rest, -, rfl⟩ := step_next hstep
  · exact .inl rfl
  · have hhead : s.inbox.head? = some (.request r) := by rw [hinbox, List.head?_cons]
    obtain hdraws | ⟨hdraws, rfl | ⟨hmode, rfl⟩⟩ := heffect.draws_eq
    · exact .inl hdraws
    · exact .inr ⟨hdraws, .inl hhead⟩
    · exact .inr ⟨hdraws, .inr ⟨hmode, hhead⟩⟩
  · exact .inl rfl

/-- Settles O57: taking the oldest event is all that a step does to the inbox, and nothing touches the parameters
(00 R8, 70 R360). -/
theorem parametersNeverChange : Obligations.ParametersNeverChange := by
  intro s t hstep
  obtain ⟨hinbox, rfl⟩ | ⟨r, rest, hinbox, heffect⟩ | ⟨es, rest, hinbox, rfl⟩ := step_next hstep
  · exact ⟨rfl, by rw [hinbox, List.tail_nil]⟩
  · obtain ⟨hparams, hrest⟩ := heffect.params_inbox_eq
    exact ⟨hparams, by rw [hrest, hinbox, List.tail_cons, State.takeEvent_inbox]⟩
  · exact ⟨rfl, by rw [hinbox, List.tail_cons, State.replaceStore_inbox, State.takeEvent_inbox]⟩

end Sys2Proof.Machine

namespace Sys2Proof.Machine

/-! ### The rows' words and their reports (41 R193 to R214) -/

/-- Settles O12: every instruction's meaning is its report, which sets the response alone (41 R193). -/
theorem instructionsChangeOnlyTheResponse : Obligations.InstructionsChangeOnlyTheResponse :=
  fun i s => ⟨_, recordOf i, exec_eq i s, rfl, rfl, fun _ => rfl, rfl, rfl, rfl, rfl⟩

/-- A 32-bit word presented by its number is requested to be decoded as it is. -/
theorem decodeRequest_toNat (w : Word) : decodeRequest 32 w.toNat = .request (.decode w) := by
  rw [decodeRequest, Nat.mod_eq_of_lt w.isLt, BitVec.ofNat_toNat, BitVec.setWidth_eq]

/-- Settles O13: a step handles the oldest event on the state without it, and a decode request is handled by running
the decoded instruction; the presented word is such a request (00 R6, 41 R190). -/
theorem stepRunsTheDecodedInstruction : Obligations.StepRunsTheDecodedInstruction := by
  intro s w rest
  refine ⟨step_of_inbox_eq, ?presented⟩
  case presented =>
    have hinbox : (s.withFetchWord 32 w.toNat).inbox = .request (.decode w) :: s.inbox := by
      rw [State.withFetchWord_inbox, decodeRequest_toNat]
    exact step_of_inbox_eq hinbox

/-- Settles O14, by decoding each word (41 R194, R203, R207, R211, R213, R214). -/
theorem sampleWordsDecode : Obligations.SampleWordsDecode := by
  unfold Obligations.SampleWordsDecode
  decide

/-- A register-format word decodes to the row `i` of its funct, and `i` reports the record of `m` with the word's
fields and the word itself. -/
theorem registerWord_reports {w : Word} {f : BitVec 6} {i : Instr} {m : Text} (hop : opcodeField w = 0x00#6)
    (hf : functField w = f) (hrow : decodeRegister (rsField w) (rtField w) (rdField w) (shamtField w) f = i)
    (hrecord : recordOf i = registerRecord m (rsField w) (rtField w) (rdField w) (shamtField w) f) (s : State) :
    decodeWord w = i ∧ exec i s = .next { s with response := some (.decoded (.register m w 0x00#6 (rsField w)
      (rtField w) (rdField w) (shamtField w) f)) } := by
  subst hf
  rw [decodeWord_register hop, exec_eq, hrecord, registerRecord_fields hop, hop]
  exact ⟨hrow, rfl⟩

/-- An immediate-format word decodes to the row `i` of its opcode, and `i` reports the record of `m` with the word's
fields and the word itself. -/
theorem immediateWord_reports {w : Word} {op : BitVec 6} {i : Instr} {m : Text} (hop : opcodeField w = op)
    (himmediate : op ≠ 0x00#6 ∧ op ≠ 0x02#6 ∧ op ≠ 0x03#6)
    (hrow : decodeImmediate op (rsField w) (rtField w) (immField w) = i)
    (hrecord : recordOf i = immediateRecord m op (rsField w) (rtField w) (immField w)) (s : State) :
    decodeWord w = i ∧ exec i s = .next { s with response := some (.decoded (.immediate m w op (rsField w)
      (rtField w) (immField w))) } := by
  subst hop
  obtain ⟨hregister, hj, hjal⟩ := himmediate
  rw [decodeWord_immediate hregister hj hjal, exec_eq, hrecord, immediateRecord_fields]
  exact ⟨hrow, rfl⟩

/-- A jump instruction with a word's address field reports the record of `m` with that field and the word itself. -/
theorem exec_jump {w : Word} {op : BitVec 6} {i : Instr} {m : Text} (hop : opcodeField w = op)
    (hrecord : recordOf i = jumpRecord m op (addrField w)) (s : State) :
    exec i s = .next { s with response := some (.decoded (.jump m w op (addrField w))) } := by
  subst hop
  rw [exec_eq, hrecord, jumpRecord_fields]
  rfl

/-- Settles O2: each funct selects its row, whose record has the row's name; the worked texts are computed (41 R194 to
R199, R205, R206). -/
theorem arithmeticWordsReportTheirRecord : Obligations.ArithmeticWordsReportTheirRecord := by
  refine ⟨fun w s hop => ⟨?add, ?sub, ?mult, ?multu, ?div, ?divu, ?slt, ?sltu⟩, by decide⟩
  all_goals exact fun hf => registerWord_reports hop hf rfl rfl s

/-- Settles O3: each funct selects its row, whose record has the row's name; the worked texts are computed (41 R200 to
R204). -/
theorem moveAndJumpWordsReportTheirRecord : Obligations.MoveAndJumpWordsReportTheirRecord := by
  refine ⟨fun w s hop => ⟨?mfhi, ?mflo, ?lis, ?jr, ?jalr⟩, by decide⟩
  all_goals exact fun hf => registerWord_reports hop hf rfl rfl s

/-- Settles O4: each opcode selects its row, whose record has the row's name and the raw fields; the worked texts are
computed (41 R207 to R212). -/
theorem immediateAndJumpWordsReportTheirRecord : Obligations.ImmediateAndJumpWordsReportTheirRecord := by
  refine ⟨fun w s => ⟨?lw, ?sw, ?beq, ?bne, ?j, ?jal⟩, by decide⟩
  case lw | sw | beq | bne => exact fun hop => immediateWord_reports hop (by decide) rfl rfl s
  case j => exact fun hop => ⟨decodeWord_j hop, exec_jump hop rfl s⟩
  case jal => exact fun hop => ⟨decodeWord_jal hop, exec_jump hop rfl s⟩

/-- Settles O5: a value in no named row selects the catch-all row, whose record has the synthesized name (41 R213 to
R216). -/
theorem unrecognizedWordsReportTheirRecord : Obligations.UnrecognizedWordsReportTheirRecord := by
  intro w s
  rw [← synthNameR_eq, ← synthNameI_eq]
  refine ⟨fun hop hfunct => ?register, fun hopcode => ?immediate⟩
  case register => exact registerWord_reports hop rfl (decodeRegister_other _ _ _ _ hfunct) rfl s
  case immediate =>
    exact immediateWord_reports rfl (immediate_of_not_mem_namedOpcodes hopcode) (decodeImmediate_other _ _ _ hopcode)
      rfl s

/-! ### Decoding and the permissive encoders (41 R218, R219; 42 R248) -/

theorem encodeRegisterFormat_fields {w : Word} (h : opcodeField w = 0x00#6) :
    encodeRegisterFormat 0 (rsField w).toNat (rtField w).toNat (rdField w).toNat (shamtField w).toNat
      (functField w).toNat = w := by
  simp only [encodeRegisterFormat_eq, BitVec.ofNat_toNat, BitVec.setWidth_eq]
  exact h ▸ packRegister_fields w

theorem encodeImmediateFormat_fields (w : Word) :
    encodeImmediateFormat (opcodeField w).toNat (rsField w).toNat (rtField w).toNat (immField w).toNat = w := by
  simp only [encodeImmediateFormat_eq, BitVec.ofNat_toNat, BitVec.setWidth_eq]
  exact packImmediate_fields w

/-- The three parts of the address field are the immediate format's fields below the opcode (41 R219). -/
theorem addrField_parts (w : Word) :
    (addrField w).toNat >>> 21 = (rsField w).toNat ∧ ((addrField w).toNat >>> 16) &&& 0x1F = (rtField w).toNat ∧
      (addrField w).toNat &&& 0xFFFF = (immField w).toNat := by
  have hrt := shiftRight_and_mask (addrField w).toNat 16 5
  have himm := Nat.and_two_pow_sub_one_eq_mod (addrField w).toNat 16
  rw [addrField_toNat] at hrt himm ⊢
  rw [rsField_toNat, rtField_toNat, immField_toNat, Nat.shiftRight_eq_div_pow]
  exact ⟨by omega, hrt.trans (by omega), himm.trans (by omega)⟩

/-- Settles O10: the record of a word has the word's own fields, and packing them again gives the word (41 R218,
R219). -/
theorem decodedFieldsRebuildTheWord : Obligations.DecodedFieldsRebuildTheWord := by
  intro w
  rw [decodeFollowsTheTables w]
  refine ⟨fun h => ?register, fun hregister hj hjal => ?immediate, fun h => ?jump⟩
  case register =>
    have hrecord := tableRecord_register h
    rw [show opcodeField w = 0 from h] at hrecord
    exact ⟨_, _, _, _, _, _, hrecord, encodeRegisterFormat_fields h⟩
  case immediate =>
    exact ⟨_, _, _, _, _, tableRecord_immediate hregister (not_or.2 ⟨hj, hjal⟩), encodeImmediateFormat_fields w⟩
  case jump =>
    obtain ⟨hrs, hrt, himm⟩ := addrField_parts w
    refine ⟨_, _, _, tableRecord_jump h, ?_⟩
    rw [hrs, hrt, himm, encodeImmediateFormat_fields]

/-- Settles O18: an encoder packs the fields, and decoding a packing gives the packed fields (42 R248). -/
theorem decodeOfEncoderOutput : Obligations.DecodeOfEncoderOutput := by
  constructor
  case left =>
    intro rs rt rd shamt funct _ _ _ _ _
    rw [encodeRegisterFormat_eq, decodeRecord, decodeWord_packRegister, recordOf_decodeRegister]
    exact ⟨_, rfl⟩
  case right =>
    intro opcode rs rt imm hrange hregister hj hjal _ _ _
    have hne : ∀ k < 64, opcode ≠ k → BitVec.ofNat 6 opcode ≠ BitVec.ofNat 6 k := by
      intro k hk hne heq
      have htoNat := congrArg BitVec.toNat heq
      simp only [BitVec.toNat_ofNat] at htoNat
      omega
    rw [encodeImmediateFormat_eq, decodeRecord, decodeWord_packImmediate (hne 0 (by decide) hregister)
      (hne 2 (by decide) hj) (hne 3 (by decide) hjal), recordOf_decodeImmediate]
    exact ⟨_, rfl⟩

/-! ### Negative operands (42 R242) -/

/-- The operand check names the operand that a search for the first negative one finds. -/
theorem firstNegative_eq_find? (operands : List (FieldName × Int)) :
    firstNegative operands = (operands.find? fun p => decide (p.2 < 0)).map Prod.fst := by
  induction operands with
  | nil => rfl
  | cons p rest ih =>
    by_cases h : p.2 < 0
    · simp [firstNegative, h]
    · simp [firstNegative, h, ih]

theorem exists_firstNegative {operands : List (FieldName × Int)} (h : ∃ p ∈ operands, p.2 < 0) :
    ∃ f, firstNegative operands = some f ∧
      ∃ x < 0, operands.find? (fun p => decide (p.2 < 0)) = some (f, x) := by
  have hfound : (operands.find? fun p => decide (p.2 < 0)).isSome = true := by simpa using h
  obtain ⟨⟨f, x⟩, hfind⟩ := Option.isSome_iff_exists.1 hfound
  have hnegative : x < 0 := by simpa using List.find?_some hfind
  exact ⟨f, by rw [firstNegative_eq_find?, hfind, Option.map_some], x, hnegative, hfind⟩

/-- An outcome behind the check of the operands: refused for the first negative one. -/
def negativeChecked (operands : List (FieldName × Int)) (outcome : StepOutcome) : StepOutcome :=
  match firstNegative operands with
  | some f => .refused (.negativeField f)
  | none => outcome

theorem negativeChecked_of_some {operands : List (FieldName × Int)} {f : FieldName}
    (h : firstNegative operands = some f) (outcome : StepOutcome) :
    negativeChecked operands outcome = .refused (.negativeField f) := by
  rw [negativeChecked, h]

theorem negativeChecked_next {operands : List (FieldName × Int)} {outcome : StepOutcome} {t : State}
    (h : negativeChecked operands outcome = .next t) : firstNegative operands = none ∧ outcome = .next t := by
  unfold negativeChecked at h
  split at h
  · cases h
  · next hcheck => exact ⟨hcheck, h⟩

theorem negativeChecked_refused {operands : List (FieldName × Int)} {outcome : StepOutcome} {x : Refusal}
    (houtcome : outcome ≠ .refused x) (h : negativeChecked operands outcome = .refused x) :
    ∃ f, x = .negativeField f ∧ ∃ y < 0, (f, y) ∈ operands := by
  unfold negativeChecked at h
  split at h
  · next f hcheck =>
    cases h
    exact ⟨f, rfl, firstNegative_some hcheck⟩
  · exact absurd h houtcome

section Encoders
variable (opcode rs rt rd shamt funct immediate : Int) (s : State)

theorem perform_encodeRegisterFormat_eq :
    perform (.encodeRegisterFormat opcode rs rt rd shamt funct) s =
      negativeChecked [(.opcode, opcode), (.rs, rs), (.rt, rt), (.rd, rd), (.shamt, shamt), (.funct, funct)]
        (.next (s.respond (.instruction
          (encodeRegisterFormat opcode.toNat rs.toNat rt.toNat rd.toNat shamt.toNat funct.toNat)))) := rfl

theorem perform_encodeImmediateFormat_eq :
    perform (.encodeImmediateFormat opcode rs rt immediate) s =
      negativeChecked [(.opcode, opcode), (.rs, rs), (.rt, rt), (.immediate, immediate)]
        (.next (s.respond (.instruction
          (encodeImmediateFormat opcode.toNat rs.toNat rt.toNat immediate.toNat)))) := rfl

theorem perform_encodeRegisterFormatStrict_eq :
    perform (.encodeRegisterFormatStrict opcode rs rt rd shamt funct) s =
      negativeChecked [(.opcode, opcode), (.rs, rs), (.rt, rt), (.rd, rd), (.shamt, shamt), (.funct, funct)]
        (answer ((encodeRegisterFormatStrict opcode.toNat rs.toNat rt.toNat rd.toNat shamt.toNat funct.toNat).map
          .instruction) s) := rfl

theorem perform_encodeImmediateFormatStrict_eq :
    perform (.encodeImmediateFormatStrict opcode rs rt immediate) s =
      negativeChecked [(.opcode, opcode), (.rs, rs), (.rt, rt), (.immediate, immediate)]
        (answer ((encodeImmediateFormatStrict opcode.toNat rs.toNat rt.toNat immediate.toNat).map
          .instruction) s) := rfl

end Encoders

/-- Settles O17: both encoders of a format make the same check first, and it names the first negative operand
(42 R242). -/
theorem negativeOperandsAreRefused : Obligations.NegativeOperandsAreRefused := by
  intro opcode rs rt rd shamt funct immediate s
  constructor
  case left =>
    intro hnegative
    obtain ⟨f, hcheck, hfind⟩ := exists_firstNegative (operands := [(.opcode, opcode), (.rs, rs), (.rt, rt), (.rd, rd),
      (.shamt, shamt), (.funct, funct)]) (by simpa using hnegative)
    refine ⟨f, ?permissive, ?strict, hfind⟩
    case permissive => rw [perform_encodeRegisterFormat_eq, negativeChecked_of_some hcheck]
    case strict => rw [perform_encodeRegisterFormatStrict_eq, negativeChecked_of_some hcheck]
  case right =>
    intro hnegative
    obtain ⟨f, hcheck, hfind⟩ := exists_firstNegative (operands := [(.opcode, opcode), (.rs, rs), (.rt, rt),
      (.immediate, immediate)]) (by simpa using hnegative)
    refine ⟨f, ?permissive, ?strict, hfind⟩
    case permissive => rw [perform_encodeImmediateFormat_eq, negativeChecked_of_some hcheck]
    case strict => rw [perform_encodeImmediateFormatStrict_eq, negativeChecked_of_some hcheck]

end Sys2Proof.Machine

namespace Sys2Proof.Machine

/-! ### A binary text read in decimal (40 R154) -/

/-- The number whose decimal digits are the `n` low bits of `v`. -/
def bitsInDecimal (n v : Nat) : Nat := ∑ i ∈ Finset.range n, v / 2 ^ i % 2 * 10 ^ i

theorem bitsInDecimal_succ (n v : Nat) : bitsInDecimal (n + 1) v = 10 * bitsInDecimal n (v / 2) + v % 2 := by
  rw [bitsInDecimal, Finset.sum_range_succ', bitsInDecimal, Finset.mul_sum]
  congr 1
  · refine Finset.sum_congr rfl fun i _ => ?_
    rw [Nat.div_div_eq_div_mul, ← Nat.pow_succ', Nat.pow_succ 10]
    ring
  · simp

theorem digitsValue_fixedDigits_two (n v : Nat) : digitsValue 10 0 (fixedDigits 2 n v) = bitsInDecimal n v := by
  induction n generalizing v with
  | zero => rfl
  | succ n ih =>
    rw [fixedDigits, bitsInDecimal_succ, digitsValue, List.foldl_append, ← ih, Nat.mul_comm]
    rfl

/-- The bits from place `m` on are 0 in a value below `2 ^ m`. -/
theorem bitsInDecimal_of_lt {m n v : Nat} (hmn : m ≤ n) (hv : v < 2 ^ m) : bitsInDecimal n v = bitsInDecimal m v := by
  refine (Finset.sum_subset (Finset.range_mono hmn) fun i _ hi => ?_).symm
  have hpow : 2 ^ m ≤ 2 ^ i := Nat.pow_le_pow_right (by decide) (by simpa using hi)
  rw [Nat.div_eq_of_lt (hv.trans_le hpow), Nat.zero_mod, Nat.zero_mul]

/-- Each of the `n` decimal digits is at most 1, so nine times the number still has `n` digits. -/
theorem nine_mul_bitsInDecimal_lt (n v : Nat) : 9 * bitsInDecimal n v < 10 ^ n := by
  induction n generalizing v with
  | zero => simp [bitsInDecimal]
  | succ n ih =>
    have hq := ih (v / 2)
    rw [bitsInDecimal_succ, Nat.pow_succ]
    omega

theorem le_bitsInDecimal {n v : Nat} (hv : v < 2 ^ n) : v ≤ bitsInDecimal n v := by
  induction n generalizing v with
  | zero => simpa [bitsInDecimal] using hv
  | succ n ih =>
    have hq : v / 2 ≤ bitsInDecimal n (v / 2) := ih (by omega)
    rw [bitsInDecimal_succ]
    omega

/-- A bit above the lowest counts for more in decimal. -/
theorem lt_bitsInDecimal {n v : Nat} (hv : v < 2 ^ n) (htwo : 2 ≤ v) : v < bitsInDecimal n v := by
  cases n with
  | zero => omega
  | succ n =>
    have hq : v / 2 ≤ bitsInDecimal n (v / 2) := le_bitsInDecimal (by omega)
    rw [bitsInDecimal_succ]
    omega

/-- A value of `2 ^ k` or more has a digit at place `k` or above. -/
theorem ten_pow_le_bitsInDecimal {n k v : Nat} (hv : v < 2 ^ n) (hk : 2 ^ k ≤ v) : 10 ^ k ≤ bitsInDecimal n v := by
  induction n generalizing k v with
  | zero => have := Nat.pow_pos (n := k) (show 0 < 2 by decide); omega
  | succ n ih =>
    cases k with
    | zero => exact hk.trans (le_bitsInDecimal hv)
    | succ k =>
      have hq : 10 ^ k ≤ bitsInDecimal n (v / 2) := ih (by omega) (by omega)
      rw [bitsInDecimal_succ, Nat.pow_succ]
      omega

theorem toBinary_digit_lt (v : Word128) {d : Nat} (hd : d ∈ fixedDigits 2 128 v.toNat) : d < 10 :=
  (fixedDigits_lt (by decide) 128 v.toNat d hd).trans (by decide)

theorem toBinary_all (v : Word128) : (toBinary v).all isDecChar = true := by
  simp only [toBinary, List.all_map, List.all_eq_true]
  exact fun d hd => isDecChar_digitChar d (toBinary_digit_lt v hd)

theorem toBinary_ne_nil (v : Word128) : toBinary v ≠ [] := by
  simp [toBinary, ← List.length_eq_zero_iff, fixedDigits_length]

/-- A binary text is a decimal numeral: its digits are the bits. -/
theorem parse_toBinary (v : Word128) :
    parse (toBinary v) = boundedNumeral (toBinary v) (bitsInDecimal 128 v.toNat) := by
  have hread : readNumeral 10 decimalValue (toBinary v) = some (bitsInDecimal 128 v.toNat) := by
    rw [readNumeral_of_ne_nil (toBinary_ne_nil v), toBinary,
      readDigits_map fun d hd => decimalValue_digitChar d (toBinary_digit_lt v hd), digitsValue_fixedDigits_two]
  exact parse_of_parseNat_some (parseNat_of_decimal (afterHexMark_of_all_isDecChar (toBinary_all v)) hread)

/-- Settles O22: the number read has a digit at place 39 or above when a bit is there, and `10 ^ 39` is above `2 ^ 128`;
39 digits 0 and 1 stay below it, and their number is above that of the bits if a bit above the lowest is set
(40 R154). -/
theorem parseReadsBinaryTextInDecimal : Obligations.ParseReadsBinaryTextInDecimal := by
  intro v
  rw [parse_toBinary]
  refine ⟨fun hlarge => ?error, fun hsmall => ⟨BitVec.ofNat 128 (bitsInDecimal 39 v.toNat), ?value, ?digits, ?differs⟩⟩
  case error =>
    have hdigit : 10 ^ 39 ≤ bitsInDecimal 128 v.toNat := ten_pow_le_bitsInDecimal v.isLt hlarge
    exact if_pos (le_trans (by decide) hdigit)
  all_goals have hfits : bitsInDecimal 39 v.toNat < 2 ^ 128 := by have := nine_mul_bitsInDecimal_lt 39 v.toNat; omega
  case value =>
    rw [bitsInDecimal_of_lt (by decide) hsmall]
    exact if_neg hfits.not_ge
  case digits => exact (BitVec.toNat_ofNat ..).trans (Nat.mod_eq_of_lt hfits)
  case differs =>
    intro htwo heq
    have hlt : v.toNat < bitsInDecimal 39 v.toNat := lt_bitsInDecimal hsmall htwo
    have htoNat : bitsInDecimal 39 v.toNat = v.toNat := by
      rw [← Nat.mod_eq_of_lt hfits, ← BitVec.toNat_ofNat, heq]
    exact hlt.ne' htoNat

/-! ### The round trips of base 32 (40 R165) -/

theorem fromBase32_of_readNumeral {t : Text} {v : Nat} (hread : readNumeral 32 base32Value t = some v)
    (hv : v < 2 ^ 128) : fromBase32 t = .ok (BitVec.ofNat 128 v) := by
  rw [fromBase32, hread]
  exact if_pos hv

theorem readNumeral_of_fromBase32 {t : Text} {v : Word128} (h : fromBase32 t = .ok v) :
    readNumeral 32 base32Value t = some v.toNat := by
  unfold fromBase32 at h
  split at h
  · next n hread =>
    split at h
    · next hn =>
      cases h
      rw [hread, BitVec.toNat_ofNat, Nat.mod_eq_of_lt hn]
    · cases h
  · cases h

theorem fromBase32_base32Numeral {v : Nat} (hv : v < 2 ^ 128) :
    fromBase32 (base32Numeral v) = .ok (BitVec.ofNat 128 v) :=
  fromBase32_of_readNumeral (readNumeral_base32Numeral (hv.trans (by decide))) hv

theorem fromBase32_toBase32 (v : Word128) : fromBase32 (toBase32 v) = .ok v := by
  rw [toBase32, fromBase32_base32Numeral v.isLt, BitVec.ofNat_toNat, BitVec.setWidth_eq]

/-- A text of digits that does not begin with the character 0, unless it is that alone, is the numeral of its value:
the digit read last is the one R161's loop writes first. -/
theorem base32Numeral_of_readDigits {t : Text} {v : Nat} (hne : t ≠ [])
    (hhead : t.head? ≠ some (ascii '0') ∨ t = [ascii '0']) (hv : v < 32 ^ 26)
    (hread : readDigits 32 base32Value 0 t = some v) : base32Numeral v = t := by
  induction t using List.reverseRecOn generalizing v with
  | nil => exact absurd rfl hne
  | append_singleton t c ih =>
    rw [readDigits_append] at hread
    obtain ⟨u, hu, hread⟩ := Option.bind_eq_some_iff.1 hread
    simp only [readDigits] at hread
    cases hc : base32Value c with
    | none => simp [hc] at hread
    | some d =>
      simp only [hc, Option.some.injEq] at hread
      subst hread
      have hd := base32Value_lt hc
      by_cases ht : t = []
      · subst ht
        cases hu
        rw [Nat.zero_mul, Nat.zero_add, base32Numeral_of_lt hd, digitChar_base32Value hc, List.nil_append]
      · have htail : t.head? ≠ some (ascii '0') := by
          obtain ⟨b, t, rfl⟩ := List.exists_cons_of_ne_nil ht
          simpa using hhead
        have hinit : base32Numeral u = t := ih ht (.inl htail) (by omega) hu
        have hpos : u ≠ 0 := fun h0 => htail (by rw [← hinit, h0]; rfl)
        have hdiv : (u * 32 + d) / 32 = u := by omega
        have hmod : (u * 32 + d) % 32 = d := by omega
        rw [base32Numeral_of_le (by omega) hv, hdiv, hmod, hinit, digitChar_base32Value hc]

/-- Settles O25: a numeral reads back as its number, and a text without a leading 0 is the numeral of the number it
reads as (40 R165). -/
theorem base32RoundTrip : Obligations.Base32RoundTrip := by
  refine ⟨fromBase32_toBase32, fun t => ⟨?survives, ?noLeadingZero⟩, 7, by decide, by decide⟩
  case survives =>
    rintro ⟨v, hread, rfl⟩
    refine ⟨⟨v, hread⟩, ?_⟩
    by_contra hzero
    obtain ⟨hhead, hother⟩ := not_or.1 hzero
    exact hother (base32Numeral_head_zero (toNat_lt_base32_pow v) (not_not.1 hhead))
  case noLeadingZero =>
    rintro ⟨⟨v, hread⟩, hhead⟩
    have hnumeral := readNumeral_of_fromBase32 hread
    have hne : t ≠ [] := by
      rintro rfl
      cases hnumeral
    rw [readNumeral_of_ne_nil hne] at hnumeral
    exact ⟨v, hread, base32Numeral_of_readDigits hne hhead (toNat_lt_base32_pow v) hnumeral⟩

/-! ### The two kinds of entry (10 R49) -/

theorem x_mem_toHex (v : Word128) : ascii 'x' ∈ toHex v := by
  rw [toHex, hexN_eq]
  exact List.mem_cons_of_mem _ List.mem_cons_self

theorem isB32Char_x : isB32Char (ascii 'x') = false := by decide

/-- A word entry is longer than an instruction-shaped text may be. -/
theorem looksLikeInstruction_toHex (v : Word128) : looksLikeInstruction (toHex v) = false := by
  rw [Bool.eq_false_iff, Ne, classifierFollowsTheRule (toHex v)]
  rintro ⟨-, hlength, -⟩
  rw [toHex, hexN_length] at hlength
  omega

theorem wordToBase32_length_le (w : Word) : (wordToBase32 w).length ≤ 7 := by
  rw [wordToBase32_eq]
  exact base32Numeral_length_le (by decide) (w.isLt.trans (by decide))

theorem isB32Char_of_mem_wordToBase32 (w : Word) : ∀ c ∈ wordToBase32 w, isB32Char c = true := by
  intro c hc
  rw [wordToBase32_eq] at hc
  rw [← isBase32Digit_eq_isB32Char]
  exact base32Numeral_all (w.isLt.trans (by decide)) c hc

theorem looksLikeInstruction_wordToBase32 (w : Word) : looksLikeInstruction (wordToBase32 w) = true := by
  have hne : wordToBase32 w ≠ [] := wordToBase32_eq w ▸ base32Numeral_ne_nil w.toNat
  exact (classifierFollowsTheRule _).2 ⟨List.length_pos_of_ne_nil hne, (wordToBase32_length_le w).trans (by decide),
    isB32Char_of_mem_wordToBase32 w⟩

/-- Settles O29: a word entry has the `x` of its mark and 34 characters, an instruction entry at most 7, all of the
alphabet (10 R49). -/
theorem entryKindsAreToldApart : Obligations.EntryKindsAreToldApart := by
  refine fun t => ⟨?word, ?instruction⟩
  case word =>
    rintro ⟨v, rfl⟩
    exact ⟨x_mem_toHex v, isB32Char_x, looksLikeInstruction_toHex v⟩
  case instruction =>
    rintro ⟨w, rfl⟩
    exact ⟨wordToBase32_length_le w, isB32Char_of_mem_wordToBase32 w, looksLikeInstruction_wordToBase32 w⟩

/-! ### What the block reads from its own entries (43 R281, R284) -/

theorem base32Word_wordToBase32 (w : Word) : base32Word (wordToBase32 w) = .ok w := by
  have hfits : (w.setWidth 128).toNat < 2 ^ 32 := by
    rw [BitVec.toNat_setWidth_of_le (by decide)]
    exact w.isLt
  rw [wordToBase32, base32Word_of_lt (fromBase32_toBase32 _) hfits, BitVec.toNat_setWidth_of_le (by decide),
    BitVec.ofNat_toNat, BitVec.setWidth_eq]

/-- A word entry is no base-32 numeral, as it has an `x`. -/
theorem base32Word_toHex (v : Word128) : base32Word (toHex v) = .error (.invalidDigit (toHex v)) := by
  have hnotDigits : ¬(toHex v ≠ [] ∧ (toHex v).all isB32Char = true) := fun h =>
    Bool.false_ne_true (isB32Char_x.symm.trans (List.all_eq_true.1 h.2 _ (x_mem_toHex v)))
  exact base32Word_of_error (e := .invalidDigit (toHex v))
    (by rw [fromBase32, readNumeral_of_not_grammar base32Value_eq 32 hnotDigits])

end Sys2Proof.Machine

namespace Sys2Proof.Machine

/-! ### The enforcer's verdicts (20 R76 to R82) -/

/-- Settles O30: the two paths' checks, and at the reference capacity the highest address each leaves below the high
region (20 R80). -/
theorem enforcerAcceptsExactly : Obligations.EnforcerAcceptsExactly := by
  intro p a
  refine ⟨enforceWord_none_iff p a, enforceInstr_none_iff p a, fun hcapacity => ?highest⟩
  simp only [enforceWord_none_iff, enforceInstr_none_iff, hcapacity]
  refine ⟨by decide, by decide, ?word, ?instruction⟩
  case word => rintro hlow ⟨halign, hbounds⟩; omega
  case instruction => rintro hlow ⟨halign, hbounds⟩; omega

/-- Settles O32: below the high region no access of 16 bytes or less reaches `2 ^ 32`, so the 32-bit sum is the
unbounded one; in it both verdicts are the same (20 R81). -/
theorem noAddressComputationWraps : Obligations.NoAddressComputationWraps := by
  intro p a n hsize
  rw [boundsOK_iff, BitVec.toNat_add, BitVec.toNat_ofNat]
  constructor
  case left =>
    by_cases hhigh : 0xFFFF0000 ≤ a.toNat
    · exact iff_of_true (.inl hhigh) (.inl hhigh)
    · have hsum : (a.toNat + n % 2 ^ 32) % 2 ^ 32 = a.toNat + n := by omega
      rw [hsum]
  case right => intro hlow; omega

theorem enforce_of_out_of_bounds {p : Params} {a : Addr} {n : Nat}
    (h : ¬(0xFFFF0000 ≤ a.toNat ∨ a.toNat + n ≤ p.capacity)) (k : Nat) : enforce p a n k = some (.outOfBounds a n) := by
  have hbounds : boundsOK p a n = false := by rwa [← Bool.not_eq_true, boundsOK_iff]
  rw [enforce, if_pos hbounds]

theorem enforce_of_misaligned {p : Params} {a : Addr} {n k : Nat}
    (hbounds : 0xFFFF0000 ≤ a.toNat ∨ a.toNat + n ≤ p.capacity) (halign : a.toNat % k ≠ 0) :
    enforce p a n k = some (.misaligned a k) := by
  have hin : boundsOK p a n = true := (boundsOK_iff p a n).2 hbounds
  have hmisaligned : alignOK a k = false := by rwa [← Bool.not_eq_true, alignOK_iff]
  rw [enforce, hin, hmisaligned]
  rfl

/-! ### The four checked operations, by the verdict of the check -/

theorem loadWord_of_enforceWord_some {a : Addr} {s : State} {e : OpError} (hport : a ≠ s.params.inputPort)
    (hcheck : enforceWord s.params a = some e) : loadWord a s = .next (s.raise e) := by
  have hnotInput : isInputPort s.params a = false := decide_eq_false hport
  rw [loadWord, hnotInput, hcheck]
  rfl

theorem storeWord_of_enforceWord_some {a : Addr} {s : State} {e : OpError} (hport : a ≠ s.params.outputPort)
    (hcheck : enforceWord s.params a = some e) (v : Word128) : storeWord a v s = .next (s.raise e) := by
  have hnotOutput : isOutputPort s.params a = false := decide_eq_false hport
  rw [storeWord, hnotOutput, hcheck]
  rfl

theorem storeWord_of_enforceWord_none {a : Addr} {s : State} (hport : a ≠ s.params.outputPort)
    (hcheck : enforceWord s.params a = none) (v : Word128) :
    storeWord a v s = .next ((s.writeEntry a (toHex v)).respond .done) := by
  have hnotOutput : isOutputPort s.params a = false := decide_eq_false hport
  rw [storeWord, hnotOutput, hcheck]
  rfl

theorem fetchChecked_of_enforceInstr_some {a : Addr} {s : State} {e : OpError}
    (hcheck : enforceInstr s.params a = some e) : fetchChecked a s = .next (s.raise e) := by
  rw [fetchChecked, hcheck]

theorem storeChecked_of_enforceInstr_some {a : Addr} {s : State} {e : OpError}
    (hcheck : enforceInstr s.params a = some e) (w : Word) : storeChecked a w s = .next (s.raise e) := by
  rw [storeChecked, hcheck]

theorem storeChecked_of_enforceInstr_none {a : Addr} {s : State} (hcheck : enforceInstr s.params a = none) (w : Word) :
    storeChecked a w s = .next ((s.writeEntry a (wordToBase32 w)).respond .done) := by
  rw [storeChecked, hcheck]

/-- Settles O31: each operation, where it is checked, raises the enforcer's error, and the enforcer looks at the bounds
first (20 R78, R79). -/
theorem checksRaiseBoundsFirst : Obligations.ChecksRaiseBoundsFirst := by
  intro a v w s
  refine ⟨fun hport => ?load, fun hport => ?store, fun hstore => ?fetch, fun hstore => ?storeInstr⟩
  case load =>
    exact ⟨fun hout => loadWord_of_enforceWord_some hport (enforce_of_out_of_bounds hout 16),
      fun hin halign => loadWord_of_enforceWord_some hport (enforce_of_misaligned hin halign)⟩
  case store =>
    exact ⟨fun hout => storeWord_of_enforceWord_some hport (enforce_of_out_of_bounds hout 16) v,
      fun hin halign => storeWord_of_enforceWord_some hport (enforce_of_misaligned hin halign) v⟩
  case fetch =>
    rw [fetchInstruction_usesStore hstore]
    exact ⟨fun hout => fetchChecked_of_enforceInstr_some (enforce_of_out_of_bounds hout 4),
      fun hin halign => fetchChecked_of_enforceInstr_some (enforce_of_misaligned hin halign)⟩
  case storeInstr =>
    rw [storeInstruction_usesStore hstore]
    exact ⟨fun hout => storeChecked_of_enforceInstr_some (enforce_of_out_of_bounds hout 4) w,
      fun hin halign => storeChecked_of_enforceInstr_some (enforce_of_misaligned hin halign) w⟩

/-! ### A store, and what an access of the same key reads after it -/

theorem read_respond_writeEntry (s : State) (a : Addr) (t : Text) (r : Response) :
    ((s.writeEntry a t).respond r).store.read a.toNat = some t :=
  Memory.read_write_same s.store a.toNat t

/-- Settles O34: a checked word store writes the canonical text at its key, which is no instruction-shaped text and
parses as the value stored (43 R271, R275). -/
theorem storedWordIsLoaded : Obligations.StoredWordIsLoaded := by
  intro a v s hport halign hbounds
  have hcheck : enforceWord s.params a = none := (enforceWord_none_iff _ a).2 ⟨halign, hbounds⟩
  refine ⟨_, storeWord_of_enforceWord_none hport hcheck v, read_respond_writeEntry _ _ _ _,
    fun b hb => Memory.read_write_other s.store _ hb, rfl, rfl, rfl, rfl, rfl, fun hinput => ?load⟩
  rw [loadWord_of_enforceWord_none (by exact hinput) (by exact hcheck), read_respond_writeEntry,
    loadEntry_of_not_instruction (looksLikeInstruction_toHex v)]
  exact answer_map_ok (parse_toHex v) .word _

/-- Settles O35: a checked instruction store writes the base-32 text at its key, which reads back as the word stored
(43 R283, R284). -/
theorem storedInstructionIsFetched : Obligations.StoredInstructionIsFetched := by
  intro a w s hstore halign hbounds
  have hcheck : enforceInstr s.params a = none := (enforceInstr_none_iff _ a).2 ⟨halign, hbounds⟩
  refine ⟨_, (storeInstruction_usesStore hstore).trans (storeChecked_of_enforceInstr_none hcheck w),
    read_respond_writeEntry _ _ _ _, fun b hb => Memory.read_write_other s.store _ hb, rfl, rfl, rfl, rfl, rfl,
    fun hfetch => ?fetch⟩
  rw [fetchInstruction_usesStore (by exact hfetch),
    fetchChecked_of_present (by exact hcheck) (read_respond_writeEntry _ _ _ _)]
  exact answer_map_ok (base32Word_wordToBase32 w) .instruction _

/-- An access that passes the word path's check passes the instruction path's (20 R79). -/
theorem enforceInstr_none_of_enforceWord_none {p : Params} {a : Addr} (h : enforceWord p a = none) :
    enforceInstr p a = none := by
  rw [enforceWord_none_iff] at h
  rw [enforceInstr_none_iff]
  omega

/-- Settles O36: a word entry is no base-32 numeral, and an instruction entry is instruction-shaped (43 R272, R281;
70 R371). -/
theorem mixedKindsAreNotReinterpreted : Obligations.MixedKindsAreNotReinterpreted := by
  intro a v w s halign hbounds
  have hword : enforceWord s.params a = none := (enforceWord_none_iff _ a).2 ⟨halign, hbounds⟩
  have hinstr : enforceInstr s.params a = none := enforceInstr_none_of_enforceWord_none hword
  refine ⟨fun hport hfetch => ?fetchAfterWord, fun hport hstore => ?loadAfterInstruction⟩
  case fetchAfterWord =>
    refine ⟨_, storeWord_of_enforceWord_none hport hword v, ?_⟩
    rw [fetchInstruction_usesStore (by exact hfetch),
      fetchChecked_of_present (by exact hinstr) (read_respond_writeEntry _ _ _ _)]
    exact answer_map_error (base32Word_toHex v) .instruction _
  case loadAfterInstruction =>
    refine ⟨_, (storeInstruction_usesStore hstore).trans (storeChecked_of_enforceInstr_none hinstr w), ?_⟩
    rw [loadWord_of_enforceWord_none (by exact hport) (by exact hword), read_respond_writeEntry]
    exact loadEntry_of_instruction (looksLikeInstruction_wordToBase32 w) a _

/-! ### The ports (43 R270, R275, R282) -/

theorem isOutputPort_outputPort (p : Params) : isOutputPort p p.outputPort = true := decide_eq_true rfl

theorem isInputPort_inputPort (p : Params) : isInputPort p p.inputPort = true := decide_eq_true rfl

/-- Settles O38: a word store looks for the output port before any check (43 R275). -/
theorem outputPortEmits : Obligations.OutputPortEmits :=
  fun _ s => if_pos (isOutputPort_outputPort s.params)

/-- Settles O39: a word load looks for the input port before any check (43 R270). -/
theorem inputPortDraws : Obligations.InputPortDraws :=
  fun s => if_pos (isInputPort_inputPort s.params)

theorem portRoute_of_special {p : Params} {a : Addr} (hmode : p.instrPortMode = .special)
    (hport : a = p.outputPort ∨ a = p.inputPort) : portRoute p a = .mirrored := by
  rw [portRoute_port hport, hmode]

theorem portRoute_of_refuse {p : Params} {a : Addr} (hmode : p.instrPortMode = .refuse)
    (hport : a = p.outputPort ∨ a = p.inputPort) : portRoute p a = .refused := by
  rw [portRoute_port hport, hmode]

/-- Both ports lie in the high region (00 R8, 20 R72). -/
theorem mmioBase_le_of_port {p : Params} {a : Addr} (hport : a = p.outputPort ∨ a = p.inputPort) :
    0xFFFF0000 ≤ a.toNat := by
  obtain ⟨-, houtput, hinput, -⟩ := p.constraints
  obtain rfl | rfl := hport
  · exact houtput
  · exact hinput

/-- An address below the high region is no port. -/
theorem not_port_of_lt {p : Params} {a : Addr} (h : a.toNat < 0xFFFF0000) : a ≠ p.outputPort ∧ a ≠ p.inputPort :=
  not_or.1 fun hport => (mmioBase_le_of_port hport).not_gt h

/-- Where a fetch at a port goes to the store, by the mode (43 R282). -/
theorem fetchUsesStore_of_mode {s : State} {a : Addr}
    (h : s.params.instrPortMode = .ordinary ∨ s.params.instrPortMode = .special ∧ a = s.params.outputPort) :
    fetchUsesStore s a := by
  obtain ⟨-, -, -, hdistinct⟩ := s.params.constraints
  obtain hmode | ⟨hmode, rfl⟩ := h
  · exact .inr (.inl hmode)
  · exact .inr (.inr ⟨hmode, hdistinct⟩)

/-- Where an instruction store at a port goes to the store, by the mode (43 R282). -/
theorem storeUsesStore_of_mode {s : State} {a : Addr}
    (h : s.params.instrPortMode = .ordinary ∨ s.params.instrPortMode = .special ∧ a = s.params.inputPort) :
    storeUsesStore s a := by
  obtain ⟨-, -, -, hdistinct⟩ := s.params.constraints
  obtain hmode | ⟨hmode, rfl⟩ := h
  · exact .inr (.inl hmode)
  · exact .inr (.inr ⟨hmode, hdistinct.symm⟩)

/-- Settles O40: the mode gives the route; a mirrored access is the word path's at its own port, and one that goes to
the store is checked there as at any address, where the bounds of the high region hold (43 R282). -/
theorem instructionPathPorts : Obligations.InstructionPathPorts := by
  intro a w s hport
  have hhigh : 0xFFFF0000 ≤ a.toNat := mmioBase_le_of_port hport
  refine ⟨fun hmode => ?refuse, fun hmode houtput => ?emits, fun hmode hinput => ?draws, fun hmode => ?stores,
    fun hmode => ?fetches⟩
  case refuse =>
    have hroute := portRoute_of_refuse hmode hport
    rw [storeInstruction, fetchInstruction, hroute]
    exact ⟨rfl, rfl⟩
  case emits =>
    subst houtput
    rw [storeInstruction, portRoute_of_special hmode hport, BitVec.ofNat_toNat]
    exact if_pos (isOutputPort_outputPort s.params)
  case draws =>
    subst hinput
    rw [fetchInstruction, portRoute_of_special hmode hport]
    have hlow : s.nextDraw.setWidth 32 = BitVec.ofNat 32 ((Config.draw s.draws).toNat % 2 ^ 32) :=
      BitVec.eq_of_toNat_eq (by simp [State.nextDraw_eq])
    rw [← hlow]
    exact if_pos (isInputPort_inputPort s.params)
  case stores =>
    rw [storeInstruction_usesStore (storeUsesStore_of_mode hmode)]
    split
    case isTrue halign =>
      exact storeChecked_of_enforceInstr_none ((enforceInstr_none_iff _ a).2 ⟨halign, .inr hhigh⟩) w
    case isFalse halign => exact storeChecked_of_enforceInstr_some (enforce_of_misaligned (.inl hhigh) halign) w
  case fetches =>
    have hstore : fetchUsesStore s a := fetchUsesStore_of_mode hmode
    have hentry := fun halign => fetchInstructionByEntry.1 a s hstore halign (.inr hhigh)
    refine ⟨fun halign => ?misaligned, fun halign => (hentry halign).1, fun t halign => (hentry halign).2 t⟩
    rw [fetchInstruction_usesStore hstore]
    exact fetchChecked_of_enforceInstr_some (enforce_of_misaligned (.inl hhigh) halign)

/-! ### The source's scenario (43 R295) -/

theorem wordToBase32_scenario : wordToBase32 0x00000020 = text "10" := by decide

/-- The entry that the spec writes out for the scenario's query in a format, with its value. -/
def scenarioEntry (fmt : Format) (value : Text) : MemoryEntry where
  address := text "0x00001000"
  format := fmt
  valid := true
  error := none
  value := some value
  isInstruction := true
  instructionWord := some (text "0x00000020")
  decoded := some (.register (text "add") 0x20 0 0 0 0 0 0x20)

theorem queryEntries_scenario : ∀ query ∈ [(Format.base32, text "10"),
    (.hex, text "0x00000000000000000000000000000020"), (.decimal, text "32")],
    queryEntries [(0x1000, text "10")] 0x1000 0x10 query.1 = [scenarioEntry query.1 query.2] := by decide

theorem perform_queryRange {s : State} {start : Addr} {length : Nat} {fmt : Format} {es : List MemoryEntry}
    (h : queryEntries s.store start length fmt = es) :
    perform (.queryRange start length fmt) s = .next { s with response := some (.entries es) } := by
  subst h
  rfl

/-- Settles O43: the store's key is at no port, as the ports are in the high region, and passes its check; the three
queries of the one-entry store are computed (43 R295). -/
theorem sourceScenario : Obligations.SourceScenario := by
  intro p hcapacity
  have hstore : storeUsesStore (State.construct p) 0x1000 := .inl (not_port_of_lt (by decide))
  have hcheck : enforceInstr p 0x1000 = none := (enforceInstr_none_iff p 0x1000).2 ⟨by decide, .inl hcapacity⟩
  have hperform : perform (.storeInstruction 0x1000 0x20) (State.construct p) =
      .next (((State.construct p).writeEntry 0x1000 (text "10")).respond .done) := by
    rw [← wordToBase32_scenario]
    exact (storeInstruction_usesStore hstore).trans (storeChecked_of_enforceInstr_none hcheck 0x20)
  refine ⟨_, hperform, rfl, fun fmt value hquery => ?query⟩
  exact perform_queryRange (queryEntries_scenario (fmt, value) hquery)

/-! ### The store that a list describes (70 R364) -/

theorem Memory.ofEntries_append (es : List (Addr × Text)) (e : Addr × Text) :
    Memory.ofEntries (es ++ [e]) = (Memory.ofEntries es).write e.1.toNat e.2 := by
  rw [Memory.ofEntries, List.foldl_append]
  rfl

/-- An address reads as the last text listed for it. -/
theorem Memory.read_ofEntries (es : List (Addr × Text)) (a : Addr) :
    (Memory.ofEntries es).read a.toNat = (es.filter fun e => decide (e.1 = a)).getLast?.map Prod.snd := by
  induction es using List.reverseRecOn with
  | nil => rfl
  | append_singleton es e ih =>
    rw [Memory.ofEntries_append, List.filter_append]
    by_cases h : e.1 = a
    · subst h
      simp [Memory.read_write_same]
    · have hkey : a.toNat ≠ e.1.toNat := fun heq => h (BitVec.eq_of_toNat_eq heq.symm)
      simp [Memory.read_write_other _ _ hkey, h, ih]

/-- Settles O45: a replacement sets the store that its list describes (70 R364). -/
theorem hostReplacementSetsTheStore : Obligations.HostReplacementSetsTheStore :=
  fun _ es _ hinbox => ⟨Memory.ofEntries es, step_of_inbox_eq hinbox, Memory.ofEntries_wf es, Memory.read_ofEntries es⟩

/-! ### Events and responses -/

/-- Settles O46: handling an overlapped request is its refusal (20 R94). -/
theorem overlappingRequestsAreRefused : Obligations.OverlappingRequestsAreRefused :=
  fun _ _ _ _ hinbox => step_of_inbox_eq hinbox

theorem step_of_inbox_nil {s : State} (h : s.inbox = []) : step s = .next s := by
  rw [step, stepOnce, h]

/-- Settles O49: with no event the step is the idle one (70 R362). -/
theorem nothingHappensBetweenOperations : Obligations.NothingHappensBetweenOperations :=
  fun _ => step_of_inbox_nil

theorem errorCode_ne_zero (e : OpError) : errorCode e ≠ 0 := by
  cases e <;> exact Nat.succ_ne_zero _

/-- Settles O51: an error's status is its code, which is not 0, and every other response's is 0 (60 R320). -/
theorem statusCodes : Obligations.StatusCodes := by
  refine fun r => ⟨?zero, fun _ _ => rfl, fun _ _ => rfl, fun _ => rfl, fun _ => rfl, fun _ _ => rfl⟩
  cases r with
  | error e => exact iff_of_false (errorCode_ne_zero e) fun h => h e rfl
  | done | word | instruction | text | verdict | decoded | entries | info =>
    exact iff_of_true rfl fun _ h => by cases h

/-- Settles O60: the reset state is a construction, so its store is empty and its inbox too (10 R53, 70 R360). -/
theorem resetMeetsTheInvariants : Obligations.ResetMeetsTheInvariants :=
  ⟨State.construct_store_wf resetParams, List.forall_mem_nil _, State.reset, step_of_inbox_nil rfl⟩

end Sys2Proof.Machine

namespace Sys2Proof.Machine

/-! ### A word load, by what decides its answer (43 R270, R272) -/

/-- A word load draws; or away from the input port raises the enforcer's error, answers 0 for an absent key, is refused
for an instruction-shaped text, or answers as `parse` does. -/
theorem loadWord_cases (a : Addr) (s : State) :
    (∃ v, loadWord a s = .next (s.consumeDraw.respond (.word v))) ∨
      a ≠ s.params.inputPort ∧
        ((∃ e, enforceWord s.params a = some e ∧ loadWord a s = .next (s.raise e)) ∨
          loadWord a s = .next (s.respond (.word 0)) ∨
          ∃ t, s.store.read a.toNat = some t ∧
            (looksLikeInstruction t = true ∧ loadWord a s = .refused (.kindMismatch a) ∨
              loadWord a s = answer ((parse t).map .word) s)) := by
  by_cases hport : a = s.params.inputPort
  · subst hport
    exact .inl ⟨s.nextDraw, inputPortDraws s⟩
  refine .inr ⟨hport, ?_⟩
  cases hcheck : enforceWord s.params a with
  | some e => exact .inl ⟨e, rfl, loadWord_of_enforceWord_some hport hcheck⟩
  | none =>
    rw [loadWord_of_enforceWord_none hport hcheck]
    cases s.store.read a.toNat with
    | none => exact .inr (.inl (loadEntry_none a s))
    | some t =>
      refine .inr (.inr ⟨t, rfl, ?_⟩)
      cases hkind : looksLikeInstruction t with
      | true => exact .inl ⟨rfl, loadEntry_of_instruction hkind a s⟩
      | false => exact .inr (loadEntry_of_not_instruction hkind a s)

/-! ### The instruction path by the route of its address (43 R282) -/

/-- Where an access does not go to the store: at a port, in mode `refuse`, or in mode `special` at the port `q` of its
own. -/
theorem port_and_mode_of_not_usesStore {mode : InstrPortMode} {a o i q : Addr}
    (h : ¬((a ≠ o ∧ a ≠ i) ∨ mode = .ordinary ∨ (mode = .special ∧ a ≠ q))) :
    (a = o ∨ a = i) ∧ (mode = .refuse ∨ mode = .special ∧ a = q) := by
  simp only [not_or, not_and, not_not] at h
  obtain ⟨hport, hordinary, hspecial⟩ := h
  refine ⟨or_iff_not_imp_left.2 hport, ?_⟩
  cases mode with
  | ordinary => exact absurd rfl hordinary
  | special => exact .inr ⟨rfl, hspecial rfl⟩
  | refuse => exact .inl rfl

/-- A fetch uses the store, or is refused at a port, or draws. -/
theorem fetchInstruction_cases (a : Addr) (s : State) :
    fetchInstruction a s = fetchChecked a s ∨
      ((a = s.params.outputPort ∨ a = s.params.inputPort) ∧ s.params.instrPortMode = .refuse ∧
        fetchInstruction a s = .refused (.portOnInstructionPath a)) ∨
      ∃ w, fetchInstruction a s = .next (s.consumeDraw.respond (.instruction w)) := by
  by_cases hstore : fetchUsesStore s a
  · exact .inl (fetchInstruction_usesStore hstore)
  · obtain ⟨hport, hmode | ⟨hmode, rfl⟩⟩ := port_and_mode_of_not_usesStore hstore
    · refine .inr (.inl ⟨hport, hmode, ?_⟩)
      rw [fetchInstruction, portRoute_of_refuse hmode hport]
    · refine .inr (.inr ⟨s.nextDraw.setWidth 32, ?_⟩)
      rw [fetchInstruction, portRoute_of_special hmode hport]
      exact if_pos (isInputPort_inputPort s.params)

/-- An instruction store uses the store, or is refused at a port, or emits. -/
theorem storeInstruction_cases (a : Addr) (w : Word) (s : State) :
    storeInstruction a w s = storeChecked a w s ∨
      ((a = s.params.outputPort ∨ a = s.params.inputPort) ∧ s.params.instrPortMode = .refuse ∧
        storeInstruction a w s = .refused (.portOnInstructionPath a)) ∨
      storeInstruction a w s = .next ((s.emit (w.setWidth 128)).respond .done) := by
  by_cases hstore : storeUsesStore s a
  · exact .inl (storeInstruction_usesStore hstore)
  · obtain ⟨hport, hmode | ⟨hmode, rfl⟩⟩ := port_and_mode_of_not_usesStore hstore
    · refine .inr (.inl ⟨hport, hmode, ?_⟩)
      rw [storeInstruction, portRoute_of_refuse hmode hport]
    · refine .inr (.inr ?_)
      rw [storeInstruction, portRoute_of_special hmode hport]
      exact if_pos (isOutputPort_outputPort s.params)

/-! ### The causes of the errors (60 R320) -/

/-- A result's answer is an error only if the result is. -/
theorem error_of_answer_map {α : Type} {result : Except OpError α} {f : α → Response} {s t : State} {e : OpError}
    (hf : ∀ x, f x ≠ .error e) (h : answer (result.map f) s = .next t) (ht : t.response = some (.error e)) :
    result = .error e := by
  cases result with
  | ok x =>
    cases h
    exact absurd (Option.some.inj ht) (hf x)
  | error e' =>
    cases h
    cases ht
    rfl

theorem not_boundsOK_iff (p : Params) (a : Addr) (n : Nat) :
    boundsOK p a n = false ↔ a.toNat < Config.mmioBase ∧ p.capacity < a.toNat + n := by
  rw [← Bool.not_eq_true, boundsOK_iff, not_or, not_le, not_le]

theorem misaligned_of_alignOK_false {a : Addr} {k : Nat} (h : alignOK a k = false) : a.toNat % k ≠ 0 := by
  rwa [Ne, ← alignOK_iff, Bool.not_eq_true]

theorem errorCause_of_enforceWord_some {s : State} {r : Request} {a : Addr} {e : OpError} (haccess : wordAccess s r a)
    (h : enforceWord s.params a = some e) : errorCause s r e := by
  obtain ⟨hbounds, rfl⟩ | ⟨-, halign, rfl⟩ := enforce_some h
  · obtain ⟨hlow, hcapacity⟩ := (not_boundsOK_iff _ _ _).1 hbounds
    exact ⟨hlow, hcapacity, .inl ⟨rfl, haccess⟩⟩
  · exact ⟨misaligned_of_alignOK_false halign, .inl ⟨rfl, haccess⟩⟩

theorem errorCause_of_enforceInstr_some {s : State} {r : Request} {a : Addr} {e : OpError}
    (haccess : r = .fetchInstruction a ∨ ∃ w, r = .storeInstruction a w) (h : enforceInstr s.params a = some e) :
    errorCause s r e := by
  obtain ⟨hbounds, rfl⟩ | ⟨-, halign, rfl⟩ := enforce_some h
  · obtain ⟨hlow, hcapacity⟩ := (not_boundsOK_iff _ _ _).1 hbounds
    exact ⟨hlow, hcapacity, .inr ⟨rfl, haccess⟩⟩
  · exact ⟨misaligned_of_alignOK_false halign, .inr ⟨rfl, haccess⟩⟩

theorem errorCause_loadWord {a : Addr} {s t : State} {e : OpError} (h : loadWord a s = .next t)
    (ht : t.response = some (.error e)) : errorCause s (.loadWord a) e := by
  obtain ⟨v, hdraw⟩ | ⟨hport, ⟨e', hcheck, hraise⟩ | habsent | ⟨entry, hread, ⟨-, hrefused⟩ | hanswer⟩⟩ :=
    loadWord_cases a s
  · cases hdraw.symm.trans h
    cases ht
  · cases hraise.symm.trans h
    cases ht
    exact errorCause_of_enforceWord_some (.inl ⟨rfl, hport⟩) hcheck
  · cases habsent.symm.trans h
    cases ht
  · cases hrefused.symm.trans h
  · have hparse : parse entry = .error e := error_of_answer_map (by simp) (hanswer.symm.trans h) ht
    cases parse_error hparse
    exact ⟨hparse, .inr ⟨a, rfl, hport, hread⟩⟩

theorem errorCause_storeWord {a : Addr} {v : Word128} {s t : State} {e : OpError} (h : storeWord a v s = .next t)
    (ht : t.response = some (.error e)) : errorCause s (.storeWord a v) e := by
  obtain ⟨-, rfl⟩ | ⟨-, -, rfl⟩ | ⟨e', hport, hcheck, rfl⟩ := storeWord_next h
  · cases ht
  · cases ht
  · cases ht
    exact errorCause_of_enforceWord_some (.inr ⟨v, rfl, hport⟩) hcheck

/-- A checked fetch raises the enforcer's error, or what reading the text at its key gives. -/
theorem errorCause_fetchChecked {a : Addr} {s t : State} {e : OpError} (h : fetchChecked a s = .next t)
    (ht : t.response = some (.error e)) : errorCause s (.fetchInstruction a) e := by
  cases hcheck : enforceInstr s.params a with
  | some e' =>
    rw [fetchChecked_of_enforceInstr_some hcheck] at h
    cases h
    cases ht
    exact errorCause_of_enforceInstr_some (.inl rfl) hcheck
  | none =>
    cases hread : s.store.read a.toNat with
    | none =>
      rw [fetchChecked_of_absent hcheck hread] at h
      cases h
      cases ht
    | some entry =>
      rw [fetchChecked_of_present hcheck hread] at h
      have hword : base32Word entry = .error e := error_of_answer_map (by simp) h ht
      cases base32Word_error hword
      exact .inr ⟨hword, .inr ⟨a, rfl, hread⟩⟩

theorem errorCause_fetchInstruction {a : Addr} {s t : State} {e : OpError} (h : fetchInstruction a s = .next t)
    (ht : t.response = some (.error e)) : errorCause s (.fetchInstruction a) e := by
  obtain hchecked | ⟨-, -, hrefused⟩ | ⟨w, hdraw⟩ := fetchInstruction_cases a s
  · exact errorCause_fetchChecked (hchecked ▸ h) ht
  · cases hrefused.symm.trans h
  · cases hdraw.symm.trans h
    cases ht

theorem errorCause_storeInstruction {a : Addr} {w : Word} {s t : State} {e : OpError}
    (h : storeInstruction a w s = .next t) (ht : t.response = some (.error e)) :
    errorCause s (.storeInstruction a w) e := by
  obtain ⟨-, -, rfl⟩ | ⟨-, rfl⟩ | ⟨e', hcheck, rfl⟩ := storeInstruction_next h
  · cases ht
  · cases ht
  · cases ht
    exact errorCause_of_enforceInstr_some (.inr ⟨w, rfl⟩) hcheck

theorem decodeInstructionText_error {t : Text} {e : OpError} (h : decodeInstructionText t = .error e) :
    base32Word t = .error e := by
  unfold decodeInstructionText at h
  split at h
  · next e' hword => rwa [← Except.error.inj h]
  · cases h

theorem fieldWidth_eq (f : FieldName) :
    fieldWidth f = if f = .opcode ∨ f = .funct then 6 else if f = .immediate then 16 else 5 := by
  cases f <;> rfl

/-- An operand out of range, among operands of which none is negative, is one of the integers presented. -/
theorem outOfRange_operand {operands : List (FieldName × Int)} {f : FieldName} {x : Nat}
    (hcheck : firstNegative operands = none)
    (hout : firstOutOfRange (operands.map fun p => (p.1, p.2.toNat)) = some (f, x)) :
    2 ^ (if f = .opcode ∨ f = .funct then 6 else if f = .immediate then 16 else 5) ≤ x ∧ (f, (x : Int)) ∈ operands := by
  obtain ⟨hmem, hwide⟩ := firstOutOfRange_some hout
  refine ⟨fieldWidth_eq f ▸ hwide, ?_⟩
  obtain ⟨⟨g, y⟩, hpresented, heq⟩ := List.mem_map.1 hmem
  cases heq
  rwa [Int.toNat_of_nonneg (firstNegative_none hcheck _ hpresented)]

theorem encodeRegisterFormatStrict_error {opcode rs rt rd shamt funct : Nat} {e : OpError}
    (h : encodeRegisterFormatStrict opcode rs rt rd shamt funct = .error e) : ∃ f x, e = .fieldOutOfRange f x ∧
      firstOutOfRange [(.opcode, opcode), (.rs, rs), (.rt, rt), (.rd, rd), (.shamt, shamt), (.funct, funct)] =
        some (f, x) := by
  unfold encodeRegisterFormatStrict at h
  split at h
  · next f x hout =>
    cases h
    exact ⟨f, x, rfl, hout⟩
  · cases h

theorem encodeImmediateFormatStrict_error {opcode rs rt immediate : Nat} {e : OpError}
    (h : encodeImmediateFormatStrict opcode rs rt immediate = .error e) : ∃ f x, e = .fieldOutOfRange f x ∧
      firstOutOfRange [(.opcode, opcode), (.rs, rs), (.rt, rt), (.immediate, immediate)] = some (f, x) := by
  unfold encodeImmediateFormatStrict at h
  split at h
  · next f x hout =>
    cases h
    exact ⟨f, x, rfl, hout⟩
  · cases h

/-- Settles O48, request by request: an error is the enforcer's on a checked access, or the result's of the function
that the request answers with (60 R320, R321). -/
theorem errorsHaveTheirListedCause : Obligations.ErrorsHaveTheirListedCause := by
  intro r s t e h ht
  cases r with
  | toHex | toDecimal | toBinary | toBase32 | render | encodeInstructionText | looksLikeInstruction | queryRange
  | info =>
    cases h
    cases ht
  | decode w =>
    cases (exec_eq (decodeWord w) s).symm.trans h
    cases ht
  | parse text =>
    have hparse : parse text = .error e := error_of_answer_map (by simp) h ht
    cases parse_error hparse
    exact ⟨hparse, .inl rfl⟩
  | fromBase32 text =>
    have hread : fromBase32 text = .error e := error_of_answer_map (by simp) h ht
    cases fromBase32_error hread
    exact .inl ⟨rfl, hread⟩
  | decodeInstructionText text =>
    have hword : base32Word text = .error e := decodeInstructionText_error (error_of_answer_map (by simp) h ht)
    cases base32Word_error hword
    exact .inr ⟨hword, .inl rfl⟩
  | encodeRegisterFormat =>
    obtain ⟨-, hnext⟩ := negativeChecked_next (perform_encodeRegisterFormat_eq .. ▸ h)
    cases hnext
    cases ht
  | encodeImmediateFormat =>
    obtain ⟨-, hnext⟩ := negativeChecked_next (perform_encodeImmediateFormat_eq .. ▸ h)
    cases hnext
    cases ht
  | encodeRegisterFormatStrict opcode rs rt rd shamt funct =>
    obtain ⟨hcheck, hnext⟩ := negativeChecked_next (perform_encodeRegisterFormatStrict_eq .. ▸ h)
    obtain ⟨f, x, rfl, hout⟩ := encodeRegisterFormatStrict_error (error_of_answer_map (by simp) hnext ht)
    obtain ⟨hwide, hmem⟩ := outOfRange_operand hcheck hout
    exact ⟨hwide, .inl ⟨opcode, rs, rt, rd, shamt, funct, rfl, hmem⟩⟩
  | encodeImmediateFormatStrict opcode rs rt immediate =>
    obtain ⟨hcheck, hnext⟩ := negativeChecked_next (perform_encodeImmediateFormatStrict_eq .. ▸ h)
    obtain ⟨f, x, rfl, hout⟩ := encodeImmediateFormatStrict_error (error_of_answer_map (by simp) hnext ht)
    obtain ⟨hwide, hmem⟩ := outOfRange_operand hcheck hout
    exact ⟨hwide, .inr ⟨opcode, rs, rt, immediate, rfl, hmem⟩⟩
  | loadWord a => exact errorCause_loadWord h ht
  | storeWord a v => exact errorCause_storeWord h ht
  | fetchInstruction a => exact errorCause_fetchInstruction h ht
  | storeInstruction a w => exact errorCause_storeInstruction h ht

/-! ### The causes of the refusals (60 R333) -/

theorem loadWord_refused {a : Addr} {s : State} {x : Refusal} (h : loadWord a s = .refused x) :
    x = .kindMismatch a ∧ a ≠ s.params.inputPort ∧
      ∃ t, s.store.read a.toNat = some t ∧ looksLikeInstruction t = true := by
  obtain ⟨v, hdraw⟩ | ⟨hport, ⟨e, -, hraise⟩ | habsent | ⟨entry, hread, ⟨hkind, hrefused⟩ | hanswer⟩⟩ :=
    loadWord_cases a s
  · cases hdraw.symm.trans h
  · cases hraise.symm.trans h
  · cases habsent.symm.trans h
  · cases hrefused.symm.trans h
    exact ⟨rfl, hport, entry, hread, hkind⟩
  · exact absurd (hanswer.symm.trans h) answer_not_refused

theorem storeWord_not_refused {a : Addr} {v : Word128} {s : State} {x : Refusal} : storeWord a v s ≠ .refused x := by
  unfold storeWord
  split
  · exact fun h => by cases h
  · split <;> exact fun h => by cases h

theorem fetchChecked_not_refused {a : Addr} {s : State} {x : Refusal} : fetchChecked a s ≠ .refused x := by
  unfold fetchChecked
  split
  · exact fun h => by cases h
  · split
    · exact fun h => by cases h
    · exact answer_not_refused

theorem storeChecked_not_refused {a : Addr} {w : Word} {s : State} {x : Refusal} :
    storeChecked a w s ≠ .refused x := by
  unfold storeChecked
  split <;> exact fun h => by cases h

theorem fetchInstruction_refused {a : Addr} {s : State} {x : Refusal} (h : fetchInstruction a s = .refused x) :
    x = .portOnInstructionPath a ∧ (a = s.params.outputPort ∨ a = s.params.inputPort) ∧
      s.params.instrPortMode = .refuse := by
  obtain hchecked | ⟨hport, hmode, hrefused⟩ | ⟨w, hdraw⟩ := fetchInstruction_cases a s
  · exact absurd (hchecked ▸ h) fetchChecked_not_refused
  · cases hrefused.symm.trans h
    exact ⟨rfl, hport, hmode⟩
  · cases hdraw.symm.trans h

theorem storeInstruction_refused {a : Addr} {w : Word} {s : State} {x : Refusal}
    (h : storeInstruction a w s = .refused x) :
    x = .portOnInstructionPath a ∧ (a = s.params.outputPort ∨ a = s.params.inputPort) ∧
      s.params.instrPortMode = .refuse := by
  obtain hchecked | ⟨hport, hmode, hrefused⟩ | hemit := storeInstruction_cases a w s
  · exact absurd (hchecked ▸ h) storeChecked_not_refused
  · cases hrefused.symm.trans h
    exact ⟨rfl, hport, hmode⟩
  · cases hemit.symm.trans h

/-- A request is refused only for the cause that its refusal names. -/
theorem refusalCause_of_perform_refused {s : State} {r : Request} {rest : List HostEvent} {x : Refusal}
    (hinbox : s.inbox = .request r :: rest) (h : perform r (s.takeEvent rest) = .refused x) : refusalCause s x := by
  have hhead : s.inbox.head? = some (.request r) := by rw [hinbox, List.head?_cons]
  cases r with
  | toHex | toDecimal | toBinary | toBase32 | render | encodeInstructionText | looksLikeInstruction | queryRange
  | info =>
    cases h
  | parse | fromBase32 | decodeInstructionText => exact absurd h answer_not_refused
  | decode w => cases (exec_eq (decodeWord w) _).symm.trans h
  | encodeRegisterFormat opcode rs rt rd shamt funct =>
    obtain ⟨f, rfl, hnegative⟩ := negativeChecked_refused (fun h => by cases h)
      (perform_encodeRegisterFormat_eq .. ▸ h)
    exact ⟨_, hhead, .inl ⟨opcode, rs, rt, rd, shamt, funct, .inl rfl, hnegative⟩⟩
  | encodeImmediateFormat opcode rs rt immediate =>
    obtain ⟨f, rfl, hnegative⟩ := negativeChecked_refused (fun h => by cases h)
      (perform_encodeImmediateFormat_eq .. ▸ h)
    exact ⟨_, hhead, .inr ⟨opcode, rs, rt, immediate, .inl rfl, hnegative⟩⟩
  | encodeRegisterFormatStrict opcode rs rt rd shamt funct =>
    obtain ⟨f, rfl, hnegative⟩ := negativeChecked_refused answer_not_refused
      (perform_encodeRegisterFormatStrict_eq .. ▸ h)
    exact ⟨_, hhead, .inl ⟨opcode, rs, rt, rd, shamt, funct, .inr rfl, hnegative⟩⟩
  | encodeImmediateFormatStrict opcode rs rt immediate =>
    obtain ⟨f, rfl, hnegative⟩ := negativeChecked_refused answer_not_refused
      (perform_encodeImmediateFormatStrict_eq .. ▸ h)
    exact ⟨_, hhead, .inr ⟨opcode, rs, rt, immediate, .inr rfl, hnegative⟩⟩
  | loadWord a =>
    obtain ⟨rfl, hport, hentry⟩ := loadWord_refused h
    exact ⟨hhead, hport, hentry⟩
  | storeWord a v => exact absurd h storeWord_not_refused
  | fetchInstruction a =>
    obtain ⟨rfl, hport, hmode⟩ := fetchInstruction_refused h
    exact ⟨.inl hhead, hport, hmode⟩
  | storeInstruction a w =>
    obtain ⟨rfl, hport, hmode⟩ := storeInstruction_refused h
    exact ⟨.inr ⟨w, hhead⟩, hport, hmode⟩

/-- Settles O50: there is no reason to fault, and of the events a request is refused for its own cause, an overlapped
one always, a replacement never (60 R325, R333). -/
theorem onlyTheListedRefusals : Obligations.OnlyTheListedRefusals := by
  refine fun s => ⟨fun f => (nomatch f), fun x hstep => ?refusal⟩
  cases hinbox : s.inbox with
  | nil => cases (step_of_inbox_nil hinbox).symm.trans hstep
  | cons e rest =>
    rw [step_of_inbox_eq hinbox] at hstep
    cases e with
    | request r => exact refusalCause_of_perform_refused hinbox hstep
    | overlapping r r' =>
      cases hstep
      exact ⟨r, r', by rw [hinbox, List.head?_cons]⟩
    | replaceStore es => cases hstep

end Sys2Proof.Machine
